-- ==== Sys2Proof/Config.lean ====
section
/-! DEFINITION. The implementation parameters of spec/00_scope.md rule R4. The three policies an instance keeps for
life form `Config`; `MEM_MIN_CAPACITY` and `STEP_BUDGET` are arguments of the host operations `new` and `run`
(spec/70_reset_and_hazards.md R150, spec/45_engine_operations.md R111), so only the default of the first stands here. -/

namespace Sys2Proof

/-- `ARITH_OVERFLOW_POLICY` (rule R4, D11): what ADD, MUL and ARB do when the exact result is no word. -/
inductive OverflowPolicy where
  /-- raise `ArithmeticOverflow` (the default) -/
  | fault
  /-- keep the low 64 bits, two's complement -/
  | wrap
  deriving DecidableEq, Repr

/-- `HIGH_DIGITS_POLICY` (rule R4, R59, D5): a non-zero decimal digit at position 5 or above of the opcode word. -/
inductive HighDigitsPolicy where
  /-- raise `UnknownParameterMode` (the default) -/
  | fault
  /-- do not look at those digits -/
  | ignore
  deriving DecidableEq, Repr

/-- `UNUSED_MODE_CHECK` (rule R4, R60, D6): is a mode digit of a parameter the opcode does not have range-checked? -/
inductive UnusedModeCheck where
  /-- check all three mode digits whatever the opcode (the default) -/
  | allThree
  /-- check only the digits of the parameters the opcode has -/
  | usedOnly
  deriving DecidableEq, Repr

/-- The policies of one instance, fixed for its life (rule R10; log 3). -/
structure Config where
  arithOverflow : OverflowPolicy
  highDigits : HighDigitsPolicy
  unusedModes : UnusedModeCheck
  deriving DecidableEq, Repr

/-- The defaults of rule R4. -/
def Config.default : Config :=
  { arithOverflow := .fault, highDigits := .fault, unusedModes := .allThree }

/-- The default of `MEM_MIN_CAPACITY` (rule R4, D2: "source uses 4096"). -/
def defaultMinCapacity : Nat := 4096

/-- The upper bound of `MEM_LEN`, 2^62 words (rule R4, D3). -/
def maxMemLen : Nat := 4611686018427387904

end Sys2Proof
end

