-- ==== Sys2Proof/Word.lean ====
section
/-! DEFINITION. The word of the machine (spec/00_scope.md rule R4 `WORD`, rule R6): one signed 64-bit
two's-complement cell, used as data, opcode word, address, input, output, instruction pointer and relative base.
A word is held as a 64-bit vector and read as the integer `BitVec.toInt`; no rule reads a bit of it (log 1). -/

namespace Sys2Proof

/-- `WORD` of rule R4: a signed 64-bit two's-complement integer; its value is `w.toInt`. -/
abbrev Word := BitVec 64

/-- The least value of a word, -2^63 (rule R4). -/
abbrev minWord : Int := -9223372036854775808

/-- The greatest value of a word, 2^63 - 1 (rule R4). -/
abbrev maxWord : Int := 9223372036854775807

/-- An exact integer result lies in the range of `WORD` (rule R85: `-2^63 <= v <= 2^63 - 1`). -/
abbrev FitsWord (v : Int) : Prop := minWord ≤ v ∧ v ≤ maxWord

/-- The word whose value is `v` where `v` fits, and the low 64 bits of `v` otherwise. -/
def wordOf (v : Int) : Word := BitVec.ofInt 64 v

/-- The decimal digit of weight 10^k of a natural number (rule R6: `floor(w / 10^k) mod 10`). -/
def digit (k w : Nat) : Nat := w / 10 ^ k % 10

end Sys2Proof
end

