-- ==== Sys2Proof/Machine/State.lean ====
section
/-! DEFINITION. The architectural state of one instance (spec/10_state.md rule R10), the faults (spec/60_exceptions.md
rule R130), and the state after reset (spec/10_state.md rule R21). Plain data throughout. -/

namespace Sys2Proof.Machine

/-- The faults of rule R130, latched in `STATUS` when a step raises one (rules R16, R137). Taking a fault is a NEXT state
whose status is `Faulted(r)`, so no step ends in `Host.Outcome.fault` (log 6). -/
inductive Fault where
  /-- Raised by the decoder: `IP` outside memory at a fetch, or a parameter word beyond its end (rule R131). Safe: the
  spec's own fault; the negative and parameter-word cases are its decisions D13 and D8. -/
  | memoryOverflow
  /-- Raised by the Addressing Unit: an effective address outside memory (rule R132). Safe: the spec's own fault. -/
  | invalidAddress
  /-- Raised by the decoder: a negative opcode word or an opcode outside the table (rule R133). Safe: the spec's own
  fault; the negative case is its decision D4. -/
  | unknownOpcode
  /-- Raised by the decoder: a checked mode digit above 2, or a high digit under policy `fault` (rule R134). Safe: the
  spec's own fault. -/
  | unknownParameterMode
  /-- Raised by the Addressing Unit: a write target in Immediate mode (rule R135). Safe: the spec's own fault. -/
  | immediateWriteTarget
  /-- Raised by ADD, MUL and ARB under policy `fault` when the exact result is no word (rule R136). Safe: it marks "no
  meaning given" (D11). -/
  | arithmeticOverflow
  deriving DecidableEq, Repr

/-- The refusals of the model. No step raises one: every instruction of the table has its meaning. -/
inductive Refusal where
  /-- Raised only by an arm of `exec` whose instruction has no meaning yet; no arm is such. Safe. -/
  | notModelled (mnemonic : String)
  deriving DecidableEq, Repr

/-- `STATUS`, the one control and status register (rule R16): the outcome of the latest step. -/
inductive Status where
  | running
  | waitingForInput
  | halted (v : Word)
  | faulted (r : Fault)
  deriving DecidableEq, Repr

/-- Memory `M` (rules R11, R30): its length `MEM_LEN`, and the (address, word) pairs of the words that are not 0, in
rising order of address. The unit of addressing is the word (log 1). -/
structure Memory where
  len : Nat
  cells : List (Nat × Word)
  deriving DecidableEq, Repr

/-- What an address with no entry reads as: 0, the zero fill of rules R11 and R21. -/
def unlistedWord : Word := 0

/-- The canonical form: addresses strictly rising, inside memory, and no entry equal to what an unlisted address reads
as. -/
abbrev Memory.wf (m : Memory) : Prop :=
  m.cells.Pairwise (fun c d => c.1 < d.1) ∧ ∀ c ∈ m.cells, c.1 < m.len ∧ c.2 ≠ unlistedWord

/-- The state of one instance: the seven pieces of rule R10, and the model's own carrier of the policies of rule R4. -/
structure State where
  /-- `M` with its `MEM_LEN` (rule R11) -/
  mem : Memory
  /-- `IP`, signed 64-bit (rule R12) -/
  ip : Word
  /-- `RB`, signed 64-bit (rule R13) -/
  rb : Word
  /-- `INQ`, every value ever pushed, oldest first (rule R14) -/
  inq : List Word
  /-- `CUR`, the queue's read cursor (rule R14) -/
  cur : Nat
  /-- `OUT`, oldest first (rule R15) -/
  out : List Word
  /-- `STATUS` (rule R16) -/
  status : Status
  /-- the policies of rule R4, fixed for life (log 3) -/
  cfg : Config
  deriving DecidableEq, Repr

/-- The state right after reset (rule R21): `new` of the empty program with the default capacity and policies of rule R4
(log 4); `Sys2Proof.Laws.reset_eq_new` says so. -/
def State.reset : State :=
  { mem := { len := defaultMinCapacity, cells := [] }
    ip := 0
    rb := 0
    inq := []
    cur := 0
    out := []
    status := .running
    cfg := .default }

end Sys2Proof.Machine
end

