-- ==== Sys2Proof/Machine/Flags.lean ====
section
/-! DEFINITION. The machine has no flags (spec/10_state.md rule R17). This file holds what stands in their place: the
overflow rule `arith` (spec/40_arith_compare.md rule R85), the one policy every arithmetic result goes through, and the
word 1 or 0 that a comparison yields (spec/40_arith_compare.md rules R83, R84). -/

namespace Sys2Proof.Machine

/-- `arith(v)` for an exact integer result `v` (rule R85, D11): `v` itself when it fits; otherwise by
`ARITH_OVERFLOW_POLICY` the fault `ArithmeticOverflow` or the low 64 bits. -/
def arith (policy : OverflowPolicy) (v : Int) : Except Fault Word :=
  if FitsWord v then .ok (wordOf v)
  else
    match policy with
    | .fault => .error .arithmeticOverflow
    | .wrap => .ok (wordOf v)

/-- The result of a comparison: the word 1 or the word 0 (rules R83, R84). -/
def truthWord (b : Bool) : Word := if b then 1 else 0

end Sys2Proof.Machine
end

