-- ==== Sys2Proof/Syntax/Param.lean ====
section
/-! DEFINITION. The parts of an instruction: the addressing mode (spec/30_encoding.md rule R52), the Parameter
(spec/10_state.md rule R18) and the opcode with its operand count (spec/30_encoding.md rule R54). -/

namespace Sys2Proof

/-- The three addressing modes (rule R52). -/
inductive Mode where
  /-- digit 0: the word at address `value` -/
  | position
  /-- digit 1: `value` itself; illegal for a write target -/
  | immediate
  /-- digit 2: the word at address `value + RB` -/
  | relative
  deriving DecidableEq, Repr

/-- The mode digit of a mode (rule R52). -/
def Mode.code : Mode → Nat
  | .position => 0
  | .immediate => 1
  | .relative => 2

/-- A Parameter, "a pair (raw integer value, addressing mode)" (rules R18, R55). -/
structure Param where
  value : Word
  mode : Mode
  deriving DecidableEq, Repr

/-- The ten kinds of instruction (rule R54). -/
inductive Opcode where
  | add | mul | inp | out | jt | jf | lt | eq | arb | halt
  deriving DecidableEq, Repr

/-- The opcode number, the two low decimal digits of the opcode word (rule R54). -/
def Opcode.code : Opcode → Nat
  | .add => 1
  | .mul => 2
  | .inp => 3
  | .out => 4
  | .jt => 5
  | .jf => 6
  | .lt => 7
  | .eq => 8
  | .arb => 9
  | .halt => 99

/-- The number of parameter words an opcode is followed by (rule R54, column params). -/
def Opcode.operandCount : Opcode → Nat
  | .add => 3
  | .mul => 3
  | .inp => 1
  | .out => 1
  | .jt => 2
  | .jf => 2
  | .lt => 3
  | .eq => 3
  | .arb => 1
  | .halt => 0

end Sys2Proof
end

