-- ==== Sys2Proof/Syntax.lean ====
section
/-! DEFINITION. The instruction set: one constructor per row of spec/opcode_table.json, in the table's order
(spec/30_encoding.md rule R54), each carrying its Parameters. A mode digit of a parameter an instruction does not
have is no part of it (rules R60, R63; log 10). -/

namespace Sys2Proof

/-- An Instruction, "a tagged variant over the opcode kinds, each carrying its resolved Parameters" (rule R18). -/
inductive Instr where
  /-- ADD, `dst := a + b` (rule R81) -/
  | add (a b dst : Param)
  /-- MUL, `dst := a * b` (rule R82) -/
  | mul (a b dst : Param)
  /-- IN, `dst := next queued input; suspends if queue empty` (rule R90) -/
  | inp (dst : Param)
  /-- OUT, append `src`'s value to the output log (rule R91) -/
  | out (src : Param)
  /-- JT, jump if `cond` is not 0 (rule R95) -/
  | jt (cond target : Param)
  /-- JF, jump if `cond` is 0 (rule R96) -/
  | jf (cond target : Param)
  /-- LT, `dst := 1 if a < b else 0` (rule R83) -/
  | lt (a b dst : Param)
  /-- EQ, `dst := 1 if a = b else 0` (rule R84) -/
  | eq (a b dst : Param)
  /-- ARB, `relative_base += delta` (rule R100) -/
  | arb (delta : Param)
  /-- HALT, stop with result `M[0]` (rule R103) -/
  | halt
  deriving DecidableEq, Repr

/-- The opcode of an instruction (rule R54). -/
def Instr.opcode : Instr → Opcode
  | .add _ _ _ => .add
  | .mul _ _ _ => .mul
  | .inp _ => .inp
  | .out _ => .out
  | .jt _ _ => .jt
  | .jf _ _ => .jf
  | .lt _ _ _ => .lt
  | .eq _ _ _ => .eq
  | .arb _ => .arb
  | .halt => .halt

/-- The parameters of an instruction, in parameter order (rule R54). -/
def Instr.params : Instr → List Param
  | .add a b dst => [a, b, dst]
  | .mul a b dst => [a, b, dst]
  | .inp dst => [dst]
  | .out src => [src]
  | .jt cond target => [cond, target]
  | .jf cond target => [cond, target]
  | .lt a b dst => [a, b, dst]
  | .eq a b dst => [a, b, dst]
  | .arb delta => [delta]
  | .halt => []

/-- The size in words, opcode word included (rules R50, R62): 1, 2, 3 or 4. -/
def Instr.size (i : Instr) : Nat := i.opcode.operandCount + 1

/-- The parameter used as a destination, if the instruction has one (rule R53: p3 of `F3`, p1 of `F1W`). -/
def Instr.writeTarget : Instr → Option Param
  | .add _ _ dst => some dst
  | .mul _ _ dst => some dst
  | .inp dst => some dst
  | .out _ => none
  | .jt _ _ => none
  | .jf _ _ => none
  | .lt _ _ dst => some dst
  | .eq _ _ dst => some dst
  | .arb _ => none
  | .halt => none

end Sys2Proof
end

