-- ==== Sys2Proof/WellFormed.lean ====
section
/-! DEFINITION. Well-formed instructions. Every value of `Instr` has an encoding and the decoder accepts it, so the one
check left is the one the spec makes at execute time: "Write targets may never use Immediate mode"
(spec/10_state.md rule R20(c), spec/20_memory.md rule R34; log 16). -/

namespace Sys2Proof

/-- The instruction's write target, if it has one, is not in Immediate mode (rules R20(c), R135). -/
def Instr.wellFormed (i : Instr) : Bool :=
  match i.writeTarget with
  | none => true
  | some p => p.mode != .immediate

end Sys2Proof
end

