-- ==== Sys2Proof/Decode.lean ====
section
/-! DEFINITION. The Instruction Decoder (spec/30_encoding.md rules R50 to R63), total on any list of words, and after it
the encoder written from the same tables (rule R65: opcode word `= opcode + 100*m1 + 1000*m2 + 10000*m3`). -/

namespace Sys2Proof

/-- The three faults the decoder raises (rules R131, R133, R134). Each is a rejection by the spec's own name. -/
inductive DecodeError where
  /-- a word of the instruction lies outside memory: rule R61 steps 1 and 7 -/
  | memoryOverflow
  /-- a negative opcode word or an opcode outside the table: rule R61 steps 3 and 4 -/
  | unknownOpcode
  /-- a checked mode digit above 2, or a high digit under policy `fault`: rule R61 steps 5 and 6 -/
  | unknownParameterMode
  deriving DecidableEq, Repr

/-- The opcode map (rule R54); every other number is in no row of it (rule R56). -/
def Opcode.ofCode : Nat → Option Opcode
  | 1 => some .add
  | 2 => some .mul
  | 3 => some .inp
  | 4 => some .out
  | 5 => some .jt
  | 6 => some .jf
  | 7 => some .lt
  | 8 => some .eq
  | 9 => some .arb
  | 99 => some .halt
  | _ => none

/-- The mode of a mode digit (rule R52). Only a digit that rule R61 step 5 has checked selects the mode of a parameter,
so the last line stands for the digit 2 alone (log 11). -/
def Mode.ofDigit : Nat → Mode
  | 0 => .position
  | 1 => .immediate
  | _ => .relative

/-- What the opcode word gives: the opcode and the modes selected by its digits 2, 3 and 4 (rule R51). -/
structure Head where
  op : Opcode
  m1 : Mode
  m2 : Mode
  m3 : Mode
  deriving DecidableEq, Repr

/-- The mode digits `m1, m2, m3` of the opcode word `w` (rule R51). -/
def modeDigits (w : Nat) : List Nat := [digit 2 w, digit 3 w, digit 4 w]

/-- The mode digits that are range-checked (rule R60): all three, or only those of the opcode's parameters. -/
def checkedDigits (cfg : Config) (op : Opcode) (w : Nat) : List Nat :=
  match cfg.unusedModes with
  | .allThree => modeDigits w
  | .usedOnly => (modeDigits w).take op.operandCount

/-- Steps 5 and 6 of rule R61, for a non-negative opcode word of value `w` and opcode `op`. -/
def decodeModes (cfg : Config) (op : Opcode) (w : Nat) : Except DecodeError Head :=
  if (checkedDigits cfg op w).any (fun d => decide (2 < d)) then .error .unknownParameterMode
  else if cfg.highDigits = .fault ∧ w / 100000 ≠ 0 then .error .unknownParameterMode
  else .ok { op := op, m1 := .ofDigit (digit 2 w), m2 := .ofDigit (digit 3 w), m3 := .ofDigit (digit 4 w) }

/-- Steps 3 to 6 of rule R61: the opcode word by its value, read as a decimal number. -/
def decodeHead (cfg : Config) (w : Word) : Except DecodeError Head :=
  if w.toInt < 0 then .error .unknownOpcode
  else
    match Opcode.ofCode (w.toInt.toNat % 100) with
    | none => .error .unknownOpcode
    | some op => decodeModes cfg op w.toInt.toNat

/-- Formats `F1R` and `F1W` (rule R53): one parameter word. -/
def takeOne (h : Head) (mk : Param → Instr) : List Word → Except DecodeError (Instr × List Word)
  | p1 :: rest => .ok (mk ⟨p1, h.m1⟩, rest)
  | [] => .error .memoryOverflow

/-- Format `F2` (rule R53): two parameter words. -/
def takeTwo (h : Head) (mk : Param → Param → Instr) : List Word → Except DecodeError (Instr × List Word)
  | p1 :: p2 :: rest => .ok (mk ⟨p1, h.m1⟩ ⟨p2, h.m2⟩, rest)
  | [_] => .error .memoryOverflow
  | [] => .error .memoryOverflow

/-- Format `F3` (rule R53): three parameter words. -/
def takeThree (h : Head) (mk : Param → Param → Param → Instr) : List Word → Except DecodeError (Instr × List Word)
  | p1 :: p2 :: p3 :: rest => .ok (mk ⟨p1, h.m1⟩ ⟨p2, h.m2⟩ ⟨p3, h.m3⟩, rest)
  | [_, _] => .error .memoryOverflow
  | [_] => .error .memoryOverflow
  | [] => .error .memoryOverflow

/-- Steps 7 to 9 of rule R61: pair each parameter word with its mode; too few words is `MemoryOverflow`. -/
def takeParams (h : Head) (ws : List Word) : Except DecodeError (Instr × List Word) :=
  match h.op with
  | .add => takeThree h .add ws
  | .mul => takeThree h .mul ws
  | .inp => takeOne h .inp ws
  | .out => takeOne h .out ws
  | .jt => takeTwo h .jt ws
  | .jf => takeTwo h .jf ws
  | .lt => takeThree h .lt ws
  | .eq => takeThree h .eq ws
  | .arb => takeOne h .arb ws
  | .halt => .ok (.halt, ws)

/-- `decode()` of rule R61 on the words of the instruction stream that lie inside memory, opcode word first:
the instruction and the words after it, or the fault. No word at all is step 1 of the rule. -/
def decodeWords (cfg : Config) : List Word → Except DecodeError (Instr × List Word)
  | [] => .error .memoryOverflow
  | w :: ws =>
    match decodeHead cfg w with
    | .error e => .error e
    | .ok h => takeParams h ws

/-- The mode digit of parameter `k` (0, 1, 2) of an instruction, 0 where it has no such parameter (rule R51: an absent
digit is Position). -/
def Instr.modeDigit (i : Instr) (k : Nat) : Nat :=
  match i.params[k]? with
  | some p => p.mode.code
  | none => 0

/-- The opcode word of an instruction (rule R65): `opcode + 100*m1 + 1000*m2 + 10000*m3`, unused mode digits 0. -/
def encodeHead (i : Instr) : Word :=
  BitVec.ofNat 64 (i.opcode.code + 100 * i.modeDigit 0 + 1000 * i.modeDigit 1 + 10000 * i.modeDigit 2)

/-- The words of an instruction: the opcode word, then the parameter values (rules R50, R65). -/
def encode (i : Instr) : List Word := encodeHead i :: i.params.map Param.value

/-- The four 64-bit words that the low `nbits` bits of `w` give, the first word in the least significant 64 bits (the
host's numbering of opcode-table bits; the longest instruction is four words; log 9). -/
def tableWords (nbits w : Nat) : List Word :=
  let b := w % 2 ^ nbits
  [BitVec.ofNat 64 b, BitVec.ofNat 64 (b / 2 ^ 64), BitVec.ofNat 64 (b / 2 ^ 128), BitVec.ofNat 64 (b / 2 ^ 192)]

/-- The instruction the decoder reads from the words whose bits are `w`, under the default policies (log 9). -/
def decodeTableWord (nbits w : Nat) : Option Instr :=
  match decodeWords .default (tableWords nbits w) with
  | .ok (i, _) => some i
  | .error _ => none

end Sys2Proof
end

