-- ==== Sys2Proof/Machine/Ops.lean ====
section
/-! DEFINITION. The named operations over memory and registers: reading and writing one word (spec/20_memory.md rule
R32), the updates of each register, taking a fault (spec/60_exceptions.md rule R137), the end of a step
(spec/45_engine_operations.md rule R110) and fetching an instruction (spec/30_encoding.md rule R61). There is no return
from a fault (spec/60_exceptions.md rule R139), so no operation for one. -/

namespace Sys2Proof.Machine

/-- The word of the first entry for address `a`, or what an unlisted address reads as. -/
def lookupCell (a : Nat) : List (Nat × Word) → Word
  | [] => unlistedWord
  | c :: cs => if c.1 = a then c.2 else lookupCell a cs

/-- Put an entry before the first entry of a greater address. -/
def insertCell (a : Nat) (v : Word) : List (Nat × Word) → List (Nat × Word)
  | [] => [(a, v)]
  | c :: cs => if a < c.1 then (a, v) :: c :: cs else c :: insertCell a v cs

/-- `M[a]` (rule R7): the word at address `a`. -/
def Memory.word (m : Memory) (a : Nat) : Word := lookupCell a m.cells

/-- `M[a] <- v` (rule R32 `MemWrite`): an entry of another address stays; writing the unlisted word drops the entry.
Called only with an address that `State.resolveWriteAddress` has bounds-checked (log 17). -/
def Memory.write (m : Memory) (a : Nat) (v : Word) : Memory :=
  let others := m.cells.filter (fun c => c.1 != a)
  { m with cells := if v = unlistedWord then others else insertCell a v others }

/-- An address is valid when `0 <= address < MEM_LEN` (rule R31). -/
abbrev Memory.Valid (m : Memory) (addr : Int) : Prop := 0 ≤ addr ∧ addr < m.len

/-- `MemRead(addr, 1)` for an exact integer address (rule R32). -/
def Memory.read (m : Memory) (addr : Int) : Except Fault Word :=
  if m.Valid addr then .ok (m.word addr.toNat) else .error .invalidAddress

/-- The words at `a`, `a + 1`, ..., at most `n` of them, as far as they lie inside memory. -/
def Memory.wordsFrom (m : Memory) (a : Nat) : Nat → List Word
  | 0 => []
  | n + 1 => if a < m.len then m.word a :: m.wordsFrom (a + 1) n else []

/-- The words of a program at addresses `a`, `a + 1`, ... as memory entries (rule R150). -/
def loadCells (a : Nat) : List Word → List (Nat × Word)
  | [] => []
  | w :: ws => if w = unlistedWord then loadCells (a + 1) ws else (a, w) :: loadCells (a + 1) ws

/-- Write the words of a list at `a`, `a + 1`, ... -/
def Memory.writeWords (m : Memory) (a : Nat) : List Word → Memory
  | [] => m
  | w :: ws => (m.write a w).writeWords (a + 1) ws

/-- `IP <- IP + size` (rule R12): 64-bit; exact under the bound on `MEM_LEN` (log 2). -/
def State.advance (s : State) (size : Nat) : State := { s with ip := s.ip + BitVec.ofNat 64 size }

/-- `IP <- target` (rule R97): the target word as it is. -/
def State.jumpTo (s : State) (target : Word) : State := { s with ip := target }

/-- `RB <- v` (rule R13). -/
def State.setRb (s : State) (v : Word) : State := { s with rb := v }

/-- `M[a] <- v` (rule R32). -/
def State.writeMem (s : State) (a : Nat) (v : Word) : State := { s with mem := s.mem.write a v }

/-- `CUR <- CUR + 1` (rule R14). -/
def State.consumeInput (s : State) : State := { s with cur := s.cur + 1 }

/-- `INQ[CUR]`, or nothing when the cursor is at or past the end (rule R14). -/
def State.nextInput (s : State) : Option Word := s.inq[s.cur]?

/-- `OUT <- OUT ++ [v]` (rule R15). -/
def State.appendOut (s : State) (v : Word) : State := { s with out := s.out ++ [v] }

/-- `STATUS <- st` (rule R16). -/
def State.latch (s : State) (st : Status) : State := { s with status := st }

/-- `STATUS` is terminal (rule R16): `Halted(v)` or `Faulted(r)`. -/
def State.terminal (s : State) : Bool :=
  match s.status with
  | .running => false
  | .waitingForInput => false
  | .halted _ => true
  | .faulted _ => true

/-- Taking a fault (rule R137): `STATUS <- Faulted(reason)`, and nothing else changes; nothing is saved, no mode changes
and control goes nowhere. -/
def State.takeFault (s : State) (r : Fault) : State := s.latch (.faulted r)

/-- The end of a step from `s` (rule R110): an instruction that completed leaves its state with status `Running`; a fault
abandons the step and is taken on the state before it. -/
def State.finish (s : State) (r : Except Fault State) : Host.Outcome State Fault Refusal :=
  match r with
  | .ok t => .next (t.latch .running)
  | .error e => .next (s.takeFault e)

/-- The fault a decoder rejection is (rules R131, R133, R134). -/
def faultOfDecode : DecodeError → Fault
  | .memoryOverflow => .memoryOverflow
  | .unknownOpcode => .unknownOpcode
  | .unknownParameterMode => .unknownParameterMode

/-- The words at `IP` that lie inside memory, at most four, the longest instruction (rule R50; none when `IP` is outside
memory, rule R61 step 1). -/
def State.fetchWords (s : State) : List Word :=
  if s.ip.toInt < 0 then [] else s.mem.wordsFrom s.ip.toInt.toNat 4

/-- `decode()` (rule R61) at `IP`: it reads `IP` and `M` and writes nothing. -/
def State.decode (s : State) : Except Fault Instr :=
  match decodeWords s.cfg s.fetchWords with
  | .ok (i, _) => .ok i
  | .error e => .error (faultOfDecode e)

end Sys2Proof.Machine
end

