-- ==== Sys2Proof/Machine/Operands.lean ====
section
/-! DEFINITION. The Addressing Unit (spec/20_memory.md rules R33 to R35): the three addressing modes, for a source operand
and for a destination. Effective addresses are exact integers, never wrapped. -/

namespace Sys2Proof.Machine

/-- `resolve_read(p)` (rule R33): the value of a source operand. -/
def State.resolveRead (s : State) (p : Param) : Except Fault Word :=
  match p.mode with
  | .position => s.mem.read p.value.toInt
  | .immediate => .ok p.value
  | .relative => s.mem.read (p.value.toInt + s.rb.toInt)

/-- The bounds check of a destination (rule R34): `InvalidAddress` outside memory. -/
def State.boundedAddress (s : State) (addr : Int) : Except Fault Nat :=
  if s.mem.Valid addr then .ok addr.toNat else .error .invalidAddress

/-- `resolve_write_address(p)` (rule R34): the address a destination names. -/
def State.resolveWriteAddress (s : State) (p : Param) : Except Fault Nat :=
  match p.mode with
  | .position => s.boundedAddress p.value.toInt
  | .immediate => .error .immediateWriteTarget
  | .relative => s.boundedAddress (p.value.toInt + s.rb.toInt)

end Sys2Proof.Machine
end

