-- ==== Sys2Proof/Machine/ArithCompare.lean ====
section
/-! DEFINITION. ADD, MUL, LT, EQ (spec/40_arith_compare.md rules R80 to R84). -/

namespace Sys2Proof.Machine

/-- The common sequence of format `F3` (rule R80): both reads in parameter order, the result, the write address, the
write, `IP + 4`. The first fault raised ends the step (rule R138 ranks 7 to 11). -/
def execF3 (f : Word → Word → Except Fault Word) (p1 p2 p3 : Param) (s : State) : Host.Outcome State Fault Refusal :=
  s.finish do
    let a ← s.resolveRead p1
    let b ← s.resolveRead p2
    let v ← f a b
    let d ← s.resolveWriteAddress p3
    pure ((s.writeMem d v).advance 4)

/-- ADD (rule R81): `f(a, b) = arith(a + b)`. -/
def execAdd (a b dst : Param) (s : State) : Host.Outcome State Fault Refusal :=
  execF3 (fun x y => arith s.cfg.arithOverflow (x.toInt + y.toInt)) a b dst s

/-- MUL (rule R82): `f(a, b) = arith(a * b)`. -/
def execMul (a b dst : Param) (s : State) : Host.Outcome State Fault Refusal :=
  execF3 (fun x y => arith s.cfg.arithOverflow (x.toInt * y.toInt)) a b dst s

/-- LT (rule R83): `f(a, b) = 1 if a < b else 0`, as signed integers. -/
def execLt (a b dst : Param) (s : State) : Host.Outcome State Fault Refusal :=
  execF3 (fun x y => .ok (truthWord (decide (x.toInt < y.toInt)))) a b dst s

/-- EQ (rule R84): `f(a, b) = 1 if a = b else 0`. -/
def execEq (a b dst : Param) (s : State) : Host.Outcome State Fault Refusal :=
  execF3 (fun x y => .ok (truthWord (decide (x = y)))) a b dst s

end Sys2Proof.Machine
end

