-- ==== Sys2Proof/Machine/Halt.lean ====
section
/-! DEFINITION. HALT (spec/44_halt.md rule R103). -/

namespace Sys2Proof.Machine

/-- HALT (rule R103): `IP + 1` and `STATUS <- Halted(M[0])`. The read of `M[0]` is unconditional and cannot fail: HALT was
fetched from memory, so address 0 exists (log 14). -/
def execHalt (s : State) : Host.Outcome State Fault Refusal :=
  .next ((s.advance 1).latch (.halted (s.mem.word 0)))

end Sys2Proof.Machine
end

