-- ==== Sys2Proof/Machine/InputOutput.lean ====
section
/-! DEFINITION. IN and OUT (spec/41_input_output.md rules R90, R91), the only instructions that touch the I/O Channel. -/

namespace Sys2Proof.Machine

/-- IN (rule R90): with the queue empty the step ends in `WaitingForInput` and changes nothing else, before the write
target is looked at (D10); otherwise one value is consumed and written, `IP + 2`. -/
def execIn (dst : Param) (s : State) : Host.Outcome State Fault Refusal :=
  match s.nextInput with
  | none => .next (s.latch .waitingForInput)
  | some v =>
    s.finish do
      let d ← s.resolveWriteAddress dst
      pure ((s.consumeInput.writeMem d v).advance 2)

/-- OUT (rule R91): append the value of `src` to the output log, `IP + 2`. -/
def execOut (src : Param) (s : State) : Host.Outcome State Fault Refusal :=
  s.finish do
    let v ← s.resolveRead src
    pure ((s.appendOut v).advance 2)

end Sys2Proof.Machine
end

