-- ==== Sys2Proof/Machine/Jumps.lean ====
section
/-! DEFINITION. JT and JF (spec/42_jumps.md rules R95 to R97). -/

namespace Sys2Proof.Machine

/-- The common sequence of the jumps (rules R95, R96): both parameters are resolved, in order, before the condition is
tested (D9); a taken jump stores the target word in `IP` as it is (rule R97), a jump not taken advances by 3. -/
def execJump (taken : Word → Bool) (cond target : Param) (s : State) : Host.Outcome State Fault Refusal :=
  s.finish do
    let c ← s.resolveRead cond
    let t ← s.resolveRead target
    pure (if taken c then s.jumpTo t else s.advance 3)

/-- JT (rule R95): taken when the condition is not 0. -/
def execJt (cond target : Param) (s : State) : Host.Outcome State Fault Refusal :=
  execJump (fun c => c != 0) cond target s

/-- JF (rule R96): taken when the condition is 0. -/
def execJf (cond target : Param) (s : State) : Host.Outcome State Fault Refusal :=
  execJump (fun c => c == 0) cond target s

end Sys2Proof.Machine
end

