-- ==== Sys2Proof/Machine/RelativeBase.lean ====
section
/-! DEFINITION. ARB (spec/43_relative_base.md rule R100), the only instruction that writes `RB`. -/

namespace Sys2Proof.Machine

/-- ARB (rule R100): `RB <- arith(RB + delta)`, the operand read with the old `RB`; `IP + 2`. -/
def execArb (delta : Param) (s : State) : Host.Outcome State Fault Refusal :=
  s.finish do
    let v ← s.resolveRead delta
    let r ← arith s.cfg.arithOverflow (s.rb.toInt + v.toInt)
    pure ((s.setRb r).advance 2)

end Sys2Proof.Machine
end

