-- ==== Sys2Proof/Machine/Step.lean ====
section
/-! DEFINITION. The step (spec/45_engine_operations.md rule R110): guard, decode, execute, and the host's way of placing
one instruction where the step fetches it. -/

namespace Sys2Proof.Machine

/-- `step()` (rule R110): in a terminal state nothing happens (rule R115, log 7); otherwise decode at `IP` and execute, a
decoder fault being taken like any other (rule R137). -/
def step (s : State) : Host.Outcome State Fault Refusal :=
  if s.terminal then .next s
  else
    match s.decode with
    | .error r => .next (s.takeFault r)
    | .ok i => exec i s

/-- The address at which a four-word instruction can be placed for the next fetch: `IP` where four words from it fit the
bound on `MEM_LEN`, else 0 (log 8). -/
def State.fetchBase (s : State) : Nat :=
  if 0 ≤ s.ip.toInt ∧ s.ip.toInt + 4 ≤ maxMemLen then s.ip.toInt.toNat else 0

/-- `s` with the instruction whose bits are `w` stored where `step` fetches its next instruction, standing for the
program load of `new` (rule R150, log 8). `IP`, `MEM_LEN` and `STATUS` change only where the fetch needs it. -/
def State.withFetchWord (s : State) (nbits w : Nat) : State :=
  let base := s.fetchBase
  { s with
    mem := { s.mem with len := max s.mem.len (base + 4) }.writeWords base (tableWords nbits w)
    ip := BitVec.ofNat 64 base
    status := if s.terminal then .running else s.status }

end Sys2Proof.Machine
end

