-- ==== Sys2Proof/Machine/HostOps.lean ====
section
/-! DEFINITION. The operations the host invokes (spec/45_engine_operations.md R110 to R113, spec/70_reset_and_hazards.md
R150, R151), the Execution Status they report (spec/10_state.md rule R16) and the numeric codes of
spec/60_exceptions.md rule R130. -/

namespace Sys2Proof.Machine

/-- The Execution Status a step or a run returns (rule R16). -/
inductive Report where
  | continue
  | halt (v : Word)
  | waitingForInput
  | fault (r : Fault)
  deriving DecidableEq, Repr

/-- The status each value of `STATUS` reports (rule R16). -/
def Status.report : Status → Report
  | .running => .continue
  | .waitingForInput => .waitingForInput
  | .halted v => .halt v
  | .faulted r => .fault r

/-- The numeric codes of the faults (rule R130, D17). -/
def Fault.code : Fault → Nat
  | .memoryOverflow => 1
  | .invalidAddress => 2
  | .unknownOpcode => 3
  | .unknownParameterMode => 4
  | .immediateWriteTarget => 5
  | .arithmeticOverflow => 6

/-- The numeric codes of `STATUS` (rule R130, D17). -/
def Status.code : Status → Nat
  | .running => 0
  | .waitingForInput => 1
  | .halted _ => 2
  | .faulted _ => 3

/-- `new(program, min_capacity)` (rules R150, R151): refused above 2^62 words (D3). -/
def State.new (cfg : Config) (program : List Word) (minCapacity : Nat) : Option State :=
  if max program.length minCapacity ≤ maxMemLen then
    some
      { mem := { len := max program.length minCapacity, cells := loadCells 0 program }
        ip := 0
        rb := 0
        inq := []
        cur := 0
        out := []
        status := .running
        cfg := cfg }
  else none

/-- `push_input(v)` (rule R112): legal at any time, changes nothing else. -/
def State.pushInput (s : State) (v : Word) : State := { s with inq := s.inq ++ [v] }

/-- `drain_output()` (rule R113): returns the log and empties it. -/
def State.drainOutput (s : State) : List Word × State := (s.out, { s with out := [] })

/-- `peek_output()` (rule R113): returns the log. -/
def State.peekOutput (s : State) : List Word := s.out

/-- The state after one `step()`. A step always answers a next state (`Sys2Proof.Machine.step_answers_next`). -/
def State.stepped (s : State) : State :=
  match step s with
  | .next t => t
  | .fault _ => s
  | .refused _ => s

/-- `n` steps in a row, whatever they report. -/
def State.stepMany : Nat → State → State
  | 0, s => s
  | n + 1, s => stepMany n s.stepped

/-- `run(budget)` (rule R111): step until the status is not `Continue`, at most `budget` steps; the status returned and
the state left. -/
def runBudget : Nat → State → Report × State
  | 0, s => (s.status.report, s)
  | n + 1, s => if s.stepped.status.report = .continue then runBudget n s.stepped else (s.stepped.status.report, s.stepped)

/-- `run()` without a budget (rule R111) returns `r` and leaves `t`: some number of steps gets there, the last of them
reporting `r`, not `Continue`. Where it never returns the relation has no member (rule R157; log 12). -/
def RunReturns (s : State) (r : Report) (t : State) : Prop := ∃ n, runBudget (n + 1) s = (r, t) ∧ r ≠ .continue

/-- What the host can invoke on a constructed instance (rule R118, log 15; `run` is a sequence of steps and `peek_output` changes
nothing). -/
inductive HostOp where
  | step
  | pushInput (v : Word)
  | drainOutput
  deriving DecidableEq, Repr

/-- The state a host operation leaves. -/
def HostOp.apply : HostOp → State → State
  | .step, s => s.stepped
  | .pushInput v, s => s.pushInput v
  | .drainOutput, s => s.drainOutput.2

/-- The state a sequence of host operations leaves, one after another (rule R120). -/
def runScript : List HostOp → State → State
  | [], s => s
  | o :: os, s => runScript os (o.apply s)

end Sys2Proof.Machine
end

