-- ==== Sys2Proof/Machine/Loader.lean ====
section
/-! DEFINITION. The loader of program text (spec/30_encoding.md rule R64, D20): host software that turns "a
comma-separated sequence of decimal integers (optionally signed)" into the words `new` receives, or refuses (log 13). -/

namespace Sys2Proof.Machine

/-- Spaces, tabs and line ends, ignored around an element (rule R64). -/
def isBlank (c : Char) : Bool := c == ' ' || c == '\t' || c == '\n' || c == '\r'

/-- The elements between the commas, blanks and all; text without a comma is one element. -/
def splitCommas : List Char → List (List Char)
  | [] => [[]]
  | c :: cs =>
    if c = ',' then [] :: splitCommas cs
    else
      match splitCommas cs with
      | [] => [[c]]
      | e :: es => (c :: e) :: es

/-- An element without the blanks around it. -/
def trimBlanks (cs : List Char) : List Char :=
  ((cs.dropWhile isBlank).reverse.dropWhile isBlank).reverse

/-- The value of one decimal digit. -/
def digitValue (c : Char) : Option Nat :=
  if 48 ≤ c.toNat ∧ c.toNat ≤ 57 then some (c.toNat - 48) else none

/-- The value of decimal digits read after a prefix of value `acc`; any other character refuses. -/
def digitsFrom (acc : Nat) : List Char → Option Nat
  | [] => some acc
  | c :: cs =>
    match digitValue c with
    | some d => digitsFrom (10 * acc + d) cs
    | none => none

/-- One or more decimal digits. -/
def parseNat : List Char → Option Nat
  | [] => none
  | c :: cs => digitsFrom 0 (c :: cs)

/-- An optional `-` or `+` and then one or more digits. -/
def parseInt : List Char → Option Int
  | [] => none
  | c :: cs =>
    if c = '-' then (parseNat cs).map (fun n => -(n : Int))
    else if c = '+' then (parseNat cs).map (fun n => (n : Int))
    else (parseNat (c :: cs)).map (fun n => (n : Int))

/-- One element: a value outside the range of a word, or no value, refuses (rule R64). -/
def parseElement (cs : List Char) : Option Word :=
  match parseInt (trimBlanks cs) with
  | some v => if FitsWord v then some (wordOf v) else none
  | none => none

/-- Every element, or a refusal. -/
def parseElements : List (List Char) → Option (List Word)
  | [] => some []
  | e :: es =>
    match parseElement e, parseElements es with
    | some w, some ws => some (w :: ws)
    | some _, none => none
    | none, _ => none

/-- The words of a program text: element `i` is word `i` (rule R64). -/
def parseProgram (text : List Char) : Option (List Word) := parseElements (splitCommas text)

end Sys2Proof.Machine
end

