-- ==== Sys2Proof/Safety.lean ====
section
/-! DEFINITION. The terms claims use: the relations the spec's prose speaks in (a parameter reads as a value, a parameter
names a cell), and the invariant of the machine. They are written from the spec's sentences and not from the model's
operations. -/

namespace Sys2Proof.Machine

/-- The effective address of a Position or Relative parameter as an exact integer (spec/20_memory.md rules R33 to R35);
an Immediate parameter has none. -/
def State.effectiveAddress (s : State) (p : Param) : Option Int :=
  match p.mode with
  | .position => some p.value.toInt
  | .immediate => none
  | .relative => some (p.value.toInt + s.rb.toInt)

/-- Parameter `p` as a source operand has the value `v` (rule R33): its own value in Immediate mode, else the word at its
effective address, which lies in memory. -/
def ReadsAs (s : State) (p : Param) (v : Word) : Prop :=
  (p.mode = .immediate ∧ v = p.value) ∨
    ∃ n : Nat, s.effectiveAddress p = some (n : Int) ∧ n < s.mem.len ∧ v = s.mem.word n

/-- Parameter `p` has an effective address outside 0 to `MEM_LEN`-1 (rules R31, R132). -/
def OutOfRange (s : State) (p : Param) : Prop :=
  ∃ a : Int, s.effectiveAddress p = some a ∧ (a < 0 ∨ (s.mem.len : Int) ≤ a)

/-- Parameter `p` as a destination names the cell `n` (rule R34): its effective address is `n`, inside memory. -/
def NamesCell (s : State) (p : Param) (n : Nat) : Prop :=
  s.effectiveAddress p = some (n : Int) ∧ n < s.mem.len

/-- From `s` to `t` the cell `d` takes the value `v` and no other cell changes; memory keeps its length (rule R38). -/
def StoresOnly (s t : State) (d : Nat) (v : Int) : Prop :=
  t.mem.len = s.mem.len ∧ (t.mem.word d).toInt = v ∧ ∀ n, n ≠ d → t.mem.word n = s.mem.word n

/-- The instruction of `i` ends in the fault `r`: `STATUS` takes it and nothing else changes (rule R137). -/
def FaultsWith (i : Instr) (s : State) (r : Fault) : Prop :=
  exec i s = .next { s with status := .faulted r }

/-- A step of `s` ends in the fault `r`: `STATUS` takes it and nothing else changes (rule R137). -/
def StepFaultsWith (s : State) (r : Fault) : Prop :=
  step s = .next { s with status := .faulted r }

/-- The step fetches at the address `n`: `STATUS` is not terminal and `IP` is `n`, inside memory (rule R61 step 1). -/
def FetchesAt (s : State) (n : Nat) : Prop :=
  s.terminal = false ∧ s.ip.toInt = (n : Int) ∧ n < s.mem.len

/-- `arith` raises no fault on the exact result `v` under policy `policy` (rule R85). -/
def ArithAccepts (policy : OverflowPolicy) (v : Int) : Prop := FitsWord v ∨ policy = .wrap

/-- `i` is a jump that is taken, with the parameter `target` (spec/42_jumps.md rules R95, R96): JT with a condition other than
0, JF with the condition 0. -/
def TakesJump (s : State) (i : Instr) (target : Param) : Prop :=
  ∃ cond c, ReadsAs s cond c ∧ ((i = .jt cond target ∧ c ≠ 0) ∨ (i = .jf cond target ∧ c = 0))

/-- `i` comes as far as its write target: its sources read and its result is accepted (rule R80), or, for IN, a value is
unread (rule R90); an instruction without a write target never does. -/
def ReachesWriteTarget (s : State) : Instr → Prop
  | .add p1 p2 _ => ∃ a b, ReadsAs s p1 a ∧ ReadsAs s p2 b ∧ ArithAccepts s.cfg.arithOverflow (a.toInt + b.toInt)
  | .mul p1 p2 _ => ∃ a b, ReadsAs s p1 a ∧ ReadsAs s p2 b ∧ ArithAccepts s.cfg.arithOverflow (a.toInt * b.toInt)
  | .lt p1 p2 _ => ∃ a b, ReadsAs s p1 a ∧ ReadsAs s p2 b
  | .eq p1 p2 _ => ∃ a b, ReadsAs s p1 a ∧ ReadsAs s p2 b
  | .inp _ => s.cur < s.inq.length
  | .out _ => False
  | .jt _ _ => False
  | .jf _ _ => False
  | .arb _ => False
  | .halt => False

/-- The invariant of the machine: memory in canonical form and within the bound of rule R4, the cursor inside the queue
(rule R14), the fault `ArithmeticOverflow` only under policy `fault` (rule R16), and a halted instance still holding the
word it reported in cell 0 (rule R103). -/
structure State.Inv (s : State) : Prop where
  mem_wf : s.mem.wf
  len_le : s.mem.len ≤ maxMemLen
  cur_le : s.cur ≤ s.inq.length
  overflow_policy : s.status = .faulted .arithmeticOverflow → s.cfg.arithOverflow = .fault
  halted_cell : ∀ v, s.status = .halted v → v = s.mem.word 0

/-- The instruction at `IP` is an IN (the only instruction that suspends, rule R116). -/
def State.AtInput (s : State) : Prop := ∃ dst, s.decode = .ok (.inp dst)

/-- The values a script of host operations pushes, in order. -/
def pushesOf : List HostOp → List Word
  | [] => []
  | .pushInput v :: os => v :: pushesOf os
  | .step :: os => pushesOf os
  | .drainOutput :: os => pushesOf os

/-- Push the values of a list, in order. -/
def State.pushAll (s : State) : List Word → State
  | [] => s
  | v :: vs => (s.pushInput v).pushAll vs

/-- A script that only steps and pushes. -/
def NoDrain (ops : List HostOp) : Prop := HostOp.drainOutput ∉ ops

end Sys2Proof.Machine
end

