-- ==== Sys2Proof/Certificates/Slice0/Obligations.lean ====
section
/-! DEFINITION. The statements for the provers. Every statement quantifies over the policies of rule R4, which stand in
`State.cfg` (log 3). A clause that rests on a decision D<n> of spec/92_eei_decisions.md says so. -/

open Sys2Proof Sys2Proof.Machine

/-! ### Encoding and the decoder -/

/-- The decoder reads back every instruction the encoder writes, whatever words follow and under every policy: no operand
is dropped (rules R51, R54, R55, R65; unused mode digits written as 0, log 10). -/
def Obligations.DecodeOfEncodeIsTheInstruction : Prop :=
  ∀ (cfg : Config) (i : Instr) (rest : List Word), decodeWords cfg (encode i ++ rest) = .ok (i, rest)

/-- Words written out from rules R51 and R54 decode to the instructions they stand for. -/
def Obligations.WordsWrittenByHandDecode : Prop :=
  decodeWords .default [1002, 4, 3, 4] = .ok (.mul ⟨4, .position⟩ ⟨3, .immediate⟩ ⟨4, .position⟩, []) ∧
  decodeWords .default [21101, 1, 2, -5] = .ok (.add ⟨1, .immediate⟩ ⟨2, .immediate⟩ ⟨-5, .relative⟩, []) ∧
  decodeWords .default [203, 1] = .ok (.inp ⟨1, .relative⟩, []) ∧
  decodeWords .default [204, -1] = .ok (.out ⟨-1, .relative⟩, []) ∧
  decodeWords .default [2106, 0, 7] = .ok (.jf ⟨0, .immediate⟩ ⟨7, .relative⟩, []) ∧
  decodeWords .default [109, -5] = .ok (.arb ⟨-5, .immediate⟩, []) ∧
  decodeWords .default [22299] = .ok (.halt, [])

/-- A decoded instruction is the one the words at `IP` say: all its words lie in memory, the opcode is `w mod 100`, and
parameter `k` (counted here from 0) is the whole word at `IP + k + 1` under the mode whose digit stands at position
`k + 2` (rules R51, R55). -/
def Obligations.DecodedParametersAreTheWordsAtIp : Prop :=
  ∀ (s : State) (i : Instr), s.decode = .ok i →
    ∃ n : Nat, s.ip.toInt = n ∧ n + i.size ≤ s.mem.len ∧
      0 ≤ (s.mem.word n).toInt ∧ (s.mem.word n).toInt % 100 = i.opcode.code ∧
      ∀ (k : Nat) (p : Param), i.params[k]? = some p →
        p.value = s.mem.word (n + k + 1) ∧ digit (k + 2) (s.mem.word n).toInt.toNat = p.mode.code

/-- A step at a non-negative opcode word raises `UnknownOpcode` exactly when its two low decimal digits are 00 or 10 to 98
(rule R56). -/
def Obligations.UnknownOpcodeExactlyOutsideTheTable : Prop :=
  ∀ (s : State) (n : Nat), FetchesAt s n → 0 ≤ (s.mem.word n).toInt →
    (StepFaultsWith s .unknownOpcode ↔
      (s.mem.word n).toInt % 100 = 0 ∨ (10 ≤ (s.mem.word n).toInt % 100 ∧ (s.mem.word n).toInt % 100 ≤ 98))

/-- A step at a negative opcode word raises `UnknownOpcode` (rule R58; the spec's decision D4). -/
def Obligations.NegativeOpcodeWordFaults : Prop :=
  ∀ (s : State) (n : Nat), FetchesAt s n → (s.mem.word n).toInt < 0 → StepFaultsWith s .unknownOpcode

/-- A step at a word whose opcode is in the table raises `UnknownParameterMode` exactly when a checked mode digit is above
2, or, under policy `fault`, a decimal digit at position 5 or above is not 0 (rule R134; the spec's decisions D5 to D7). -/
def Obligations.UnknownParameterModeExactlyWhen : Prop :=
  ∀ (s : State) (n : Nat) (op : Opcode), FetchesAt s n →
    0 ≤ (s.mem.word n).toInt → (s.mem.word n).toInt % 100 = op.code →
    (StepFaultsWith s .unknownParameterMode ↔
      (∃ k, k < 3 ∧ (s.cfg.unusedModes = .allThree ∨ k < op.operandCount) ∧
        2 < digit (k + 2) (s.mem.word n).toInt.toNat) ∨
      (s.cfg.highDigits = .fault ∧ 100000 ≤ (s.mem.word n).toInt))

/-- A step raises `MemoryOverflow` exactly when `IP` is outside memory, or the opcode word is accepted and a parameter word
lies beyond the end (rule R131; the spec's decisions D8 and D13). -/
def Obligations.MemoryOverflowExactlyWhen : Prop :=
  ∀ s : State, s.terminal = false →
    (StepFaultsWith s .memoryOverflow ↔
      s.ip.toInt < 0 ∨ (s.mem.len : Int) ≤ s.ip.toInt ∨
      ∃ (n : Nat) (h : Head), s.ip.toInt = n ∧ n < s.mem.len ∧ decodeHead s.cfg (s.mem.word n) = .ok h ∧
        s.mem.len ≤ n + h.op.operandCount)

/-- Two opcode words that agree in the opcode and in the mode digits of the parameters the instruction has decode to the
same instruction, whatever legal digits stand in the unused positions (rules R60, R63; log 10). -/
def Obligations.UnusedModeDigitsAreIgnored : Prop :=
  ∀ (cfg : Config) (w w' : Word) (ws rest : List Word) (i : Instr),
    decodeWords cfg (w :: ws) = .ok (i, rest) →
    0 ≤ w'.toInt → w'.toInt < 100000 → w'.toInt % 100 = w.toInt % 100 →
    (∀ k, k < i.opcode.operandCount → digit (k + 2) w'.toInt.toNat = digit (k + 2) w.toInt.toNat) →
    (∀ k, k < 3 → digit (k + 2) w'.toInt.toNat ≤ 2) →
    decodeWords cfg (w' :: ws) = .ok (i, rest)

/-- When the words of memory from `IP` on decode to an instruction, the step of a non-terminal state is that instruction
executed in that state; nothing is added around it (rule R110). -/
def Obligations.StepRunsTheDecodedInstruction : Prop :=
  ∀ (s : State) (n : Nat) (ws : List Word) (i : Instr), s.terminal = false → s.ip.toInt = n →
    decodeWords s.cfg ws = .ok (i, []) →
    (∀ (k : Nat) (w : Word), ws[k]? = some w → n + k < s.mem.len ∧ s.mem.word (n + k) = w) →
    step s = exec i s

/-- `withFetchWord` places the instruction where the very next step fetches it, from every state: the state is not terminal,
the words fetched are the instruction's, and the invariant is kept (the model's host interface, log 8). -/
def Obligations.PlacedInstructionIsFetched : Prop :=
  ∀ (s : State) (nbits w : Nat),
    (s.withFetchWord nbits w).terminal = false ∧ (s.withFetchWord nbits w).fetchWords = tableWords nbits w ∧
    (s.Inv → (s.withFetchWord nbits w).Inv)

/-! ### ADD, MUL, LT, EQ -/

/-- ADD completes when both sources read, the exact sum fits and the destination names a cell: the sum goes to that cell
and `IP` advances by 4, everything else unchanged (rules R80, R81). -/
def Obligations.AddWritesTheExactSum : Prop :=
  ∀ (s : State) (p1 p2 p3 : Param) (a b : Word) (d : Nat),
    ReadsAs s p1 a → ReadsAs s p2 b → FitsWord (a.toInt + b.toInt) → NamesCell s p3 d →
    ∃ t, exec (.add p1 p2 p3) s = .next t ∧
      t = { s with mem := t.mem, ip := s.ip + 4, status := .running } ∧ StoresOnly s t d (a.toInt + b.toInt)

/-- MUL completes when both sources read, the exact product fits and the destination names a cell: the product goes to
that cell and `IP` advances by 4, everything else unchanged (rules R80, R82). -/
def Obligations.MulWritesTheExactProduct : Prop :=
  ∀ (s : State) (p1 p2 p3 : Param) (a b : Word) (d : Nat),
    ReadsAs s p1 a → ReadsAs s p2 b → FitsWord (a.toInt * b.toInt) → NamesCell s p3 d →
    ∃ t, exec (.mul p1 p2 p3) s = .next t ∧
      t = { s with mem := t.mem, ip := s.ip + 4, status := .running } ∧ StoresOnly s t d (a.toInt * b.toInt)

/-- A sum or product outside 64 bits: under policy `fault` ADD and MUL raise `ArithmeticOverflow` before the destination is
looked at; under policy `wrap` they complete with `((v + 2^63) mod 2^64) - 2^63` (rule R85; the spec's decisions D9 and
D11). -/
def Obligations.OverflowOfAddAndMulFollowsThePolicy : Prop :=
  ∀ (s : State) (p1 p2 p3 : Param) (a b : Word) (v : Int) (i : Instr),
    (i = .add p1 p2 p3 ∧ v = a.toInt + b.toInt) ∨ (i = .mul p1 p2 p3 ∧ v = a.toInt * b.toInt) →
    ReadsAs s p1 a → ReadsAs s p2 b → ¬ FitsWord v →
    (s.cfg.arithOverflow = .fault → FaultsWith i s .arithmeticOverflow) ∧
    (s.cfg.arithOverflow = .wrap → ∀ d, NamesCell s p3 d →
      ∃ t, exec i s = .next t ∧
        t = { s with mem := t.mem, ip := s.ip + 4, status := .running } ∧
        StoresOnly s t d ((v + 9223372036854775808) % 18446744073709551616 - 9223372036854775808))

/-- LT: its opcode word is `7 + 100*m1 + 1000*m2 + 10000*m3`; when both sources read and the destination names a cell it
writes 1 if `a < b` as signed integers, else 0, and advances `IP` by 4; the only faults it raises are `InvalidAddress` and
`ImmediateWriteTarget` (rule R83). -/
def Obligations.LessThanWritesOneOrZero : Prop :=
  (∀ p1 p2 p3 : Param, encode (.lt p1 p2 p3) =
    [BitVec.ofNat 64 (7 + 100 * p1.mode.code + 1000 * p2.mode.code + 10000 * p3.mode.code),
      p1.value, p2.value, p3.value]) ∧
  (∀ (s : State) (p1 p2 p3 : Param) (a b : Word) (d : Nat),
    ReadsAs s p1 a → ReadsAs s p2 b → NamesCell s p3 d →
    ∃ t, exec (.lt p1 p2 p3) s = .next t ∧
      t = { s with mem := t.mem, ip := s.ip + 4, status := .running } ∧
      StoresOnly s t d (if a.toInt < b.toInt then 1 else 0)) ∧
  (∀ (s t : State) (p1 p2 p3 : Param) (r : Fault), exec (.lt p1 p2 p3) s = .next t → t.status = .faulted r →
    r = .invalidAddress ∨ r = .immediateWriteTarget)

/-- EQ: its opcode word is `8 + 100*m1 + 1000*m2 + 10000*m3`; when both sources read and the destination names a cell it
writes 1 if the two words are equal, else 0, and advances `IP` by 4; the only faults it raises are `InvalidAddress` and
`ImmediateWriteTarget` (rule R84). -/
def Obligations.EqualsWritesOneOrZero : Prop :=
  (∀ p1 p2 p3 : Param, encode (.eq p1 p2 p3) =
    [BitVec.ofNat 64 (8 + 100 * p1.mode.code + 1000 * p2.mode.code + 10000 * p3.mode.code),
      p1.value, p2.value, p3.value]) ∧
  (∀ (s : State) (p1 p2 p3 : Param) (a b : Word) (d : Nat),
    ReadsAs s p1 a → ReadsAs s p2 b → NamesCell s p3 d →
    ∃ t, exec (.eq p1 p2 p3) s = .next t ∧
      t = { s with mem := t.mem, ip := s.ip + 4, status := .running } ∧
      StoresOnly s t d (if a.toInt = b.toInt then 1 else 0)) ∧
  (∀ (s t : State) (p1 p2 p3 : Param) (r : Fault), exec (.eq p1 p2 p3) s = .next t → t.status = .faulted r →
    r = .invalidAddress ∨ r = .immediateWriteTarget)

/-- The faults of the `F3` instructions in the order of rule R138 ranks 7 to 11: source 1, source 2, then (the overflow
check passed) an Immediate destination, then a destination out of range (rule R80; the spec's decisions D9 and D10). -/
def Obligations.ThreeOperandFaultsComeInOrder : Prop :=
  ∀ (s : State) (p1 p2 p3 : Param) (i : Instr),
    i = .add p1 p2 p3 ∨ i = .mul p1 p2 p3 ∨ i = .lt p1 p2 p3 ∨ i = .eq p1 p2 p3 →
    (OutOfRange s p1 → FaultsWith i s .invalidAddress) ∧
    (∀ a, ReadsAs s p1 a → OutOfRange s p2 → FaultsWith i s .invalidAddress) ∧
    (∀ a b, ReadsAs s p1 a → ReadsAs s p2 b →
      (i = .add p1 p2 p3 → ArithAccepts s.cfg.arithOverflow (a.toInt + b.toInt)) →
      (i = .mul p1 p2 p3 → ArithAccepts s.cfg.arithOverflow (a.toInt * b.toInt)) →
      (p3.mode = .immediate → FaultsWith i s .immediateWriteTarget) ∧
      (OutOfRange s p3 → FaultsWith i s .invalidAddress))

/-! ### IN, OUT -/

/-- IN with a value unread and a destination that names a cell completes: the value at the cursor goes to the cell, the
cursor advances by 1 and `IP` by 2, everything else unchanged (rule R90). -/
def Obligations.InputConsumesTheNextValue : Prop :=
  ∀ (s : State) (dst : Param) (v : Word) (d : Nat),
    s.inq[s.cur]? = some v → NamesCell s dst d →
    ∃ t, exec (.inp dst) s = .next t ∧
      t = { s with mem := t.mem, ip := s.ip + 2, cur := s.cur + 1, status := .running } ∧ StoresOnly s t d v.toInt

/-- IN with the queue empty, whatever its target, changes `STATUS` to `WaitingForInput` and nothing else (rule R90; that the
target is not looked at is the spec's decision D10). -/
def Obligations.InputSuspendsOnTheEmptyQueue : Prop :=
  ∀ (s : State) (dst : Param), s.inq.length ≤ s.cur →
    exec (.inp dst) s = .next { s with status := .waitingForInput }

/-- IN with a value unread and a bad target faults and does not consume the value (rule R90; the spec's decisions D10 and
D14). -/
def Obligations.InputTargetFaultKeepsTheValue : Prop :=
  ∀ (s : State) (dst : Param), s.cur < s.inq.length →
    (dst.mode = .immediate → FaultsWith (.inp dst) s .immediateWriteTarget) ∧
    (OutOfRange s dst → FaultsWith (.inp dst) s .invalidAddress)

/-- OUT: its opcode word is `4 + 100*m1`; when the source reads as `v` it appends `v` to the log and advances `IP` by 2,
every other piece of state unchanged; an unreadable source raises `InvalidAddress` and appends nothing; there is no third
outcome (rule R91). -/
def Obligations.OutputAppendsOneValue : Prop :=
  (∀ p : Param, encode (.out p) = [BitVec.ofNat 64 (4 + 100 * p.mode.code), p.value]) ∧
  (∀ (s : State) (p : Param) (v : Word), ReadsAs s p v →
    exec (.out p) s = .next { s with out := s.out ++ [v], ip := s.ip + 2, status := .running }) ∧
  (∀ (s : State) (p : Param), OutOfRange s p → FaultsWith (.out p) s .invalidAddress) ∧
  (∀ (s : State) (p : Param), (∃ v, ReadsAs s p v) ∨ OutOfRange s p)

/-! ### JT, JF, ARB, HALT -/

/-- JT with both parameters readable completes: it stores the target's value in `IP` when the condition is not 0 and
advances `IP` by 3 otherwise, and writes nothing else (rules R95, R97). -/
def Obligations.JumpIfTrueSetsIp : Prop :=
  ∀ (s : State) (cond target : Param) (c a : Word), ReadsAs s cond c → ReadsAs s target a →
    exec (.jt cond target) s = .next { s with ip := if c.toInt = 0 then s.ip + 3 else a, status := .running }

/-- JF with both parameters readable completes: it stores the target's value in `IP` when the condition is 0 and advances
`IP` by 3 otherwise, and writes nothing else (rules R96, R97). -/
def Obligations.JumpIfFalseSetsIp : Prop :=
  ∀ (s : State) (cond target : Param) (c a : Word), ReadsAs s cond c → ReadsAs s target a →
    exec (.jf cond target) s = .next { s with ip := if c.toInt = 0 then a else s.ip + 3, status := .running }

/-- A jump with an unreadable parameter faults, also when it would not be taken (the spec's decision D9). -/
def Obligations.JumpOperandFaults : Prop :=
  ∀ (s : State) (cond target : Param), OutOfRange s cond ∨ OutOfRange s target →
    FaultsWith (.jt cond target) s .invalidAddress ∧ FaultsWith (.jf cond target) s .invalidAddress

/-- A taken jump to a value outside memory completes; the step after it raises `MemoryOverflow` (rule R97; the spec's
decision D13). -/
def Obligations.JumpOutsideMemoryFaultsAtTheNextFetch : Prop :=
  ∀ (s : State) (i : Instr) (cond target : Param) (c a : Word),
    s.terminal = false → s.decode = .ok i → (i = .jt cond target ∧ c ≠ 0) ∨ (i = .jf cond target ∧ c = 0) →
    ReadsAs s cond c → ReadsAs s target a → a.toInt < 0 ∨ (s.mem.len : Int) ≤ a.toInt →
    ∃ t, step s = .next t ∧ t = { s with ip := a, status := .running } ∧ StepFaultsWith t .memoryOverflow

/-- ARB with its source readable and the exact sum `RB + delta` in 64 bits completes: `RB` takes the sum, `IP` advances by
2, nothing else changes (rule R100). -/
def Obligations.AdjustRelativeBaseAddsToRb : Prop :=
  ∀ (s : State) (p : Param) (v : Word), ReadsAs s p v → FitsWord (s.rb.toInt + v.toInt) →
    ∃ t, exec (.arb p) s = .next t ∧
      t = { s with rb := t.rb, ip := s.ip + 2, status := .running } ∧ t.rb.toInt = s.rb.toInt + v.toInt

/-- ARB otherwise: an unreadable source raises `InvalidAddress`; a sum outside 64 bits raises `ArithmeticOverflow` under
policy `fault` and keeps the low 64 bits under policy `wrap` (rule R100; the spec's decision D11). -/
def Obligations.AdjustRelativeBaseFaultsOrWraps : Prop :=
  ∀ (s : State) (p : Param),
    (OutOfRange s p → FaultsWith (.arb p) s .invalidAddress) ∧
    (∀ v, ReadsAs s p v → ¬ FitsWord (s.rb.toInt + v.toInt) →
      (s.cfg.arithOverflow = .fault → FaultsWith (.arb p) s .arithmeticOverflow) ∧
      (s.cfg.arithOverflow = .wrap →
        exec (.arb p) s = .next { s with rb := s.rb + v, ip := s.ip + 2, status := .running }))

/-- HALT: its opcode word is 99, or 99 with legal digits in the three unused mode positions; it always completes, with
`STATUS` `Halted(M[0])` and `IP` advanced by 1, nothing else changed; and where a step fetches it, address 0 exists (rule
R103). -/
def Obligations.HaltReportsCellZero : Prop :=
  encode .halt = [99] ∧
  (∀ (cfg : Config) (m1 m2 m3 : Nat) (rest : List Word), m1 ≤ 2 → m2 ≤ 2 → m3 ≤ 2 →
    decodeWords cfg (BitVec.ofNat 64 (99 + 100 * m1 + 1000 * m2 + 10000 * m3) :: rest) = .ok (.halt, rest)) ∧
  (∀ s : State, exec .halt s = .next { s with ip := s.ip + 1, status := .halted (s.mem.word 0) }) ∧
  (∀ s : State, s.decode = .ok .halt → 0 < s.mem.len)

/-! ### Memory -/

/-- `MemRead` gives the word at an address in memory and `InvalidAddress` outside it; `MemWrite` at an address in memory
changes that word to the value given, and neither the length nor any other word (rule R32). -/
def Obligations.ReadAfterWrite : Prop :=
  (∀ (m : Memory) (n : Nat), n < m.len → m.read n = .ok (m.word n)) ∧
  (∀ (m : Memory) (addr : Int), addr < 0 ∨ (m.len : Int) ≤ addr → m.read addr = .error .invalidAddress) ∧
  (∀ (m : Memory) (d : Nat) (v : Word), d < m.len →
    (m.write d v).len = m.len ∧ (m.write d v).read d = .ok v ∧
    ∀ addr : Int, addr ≠ d → (m.write d v).read addr = m.read addr)

/-- A step changes no word of memory but, for an instruction that has a write target, the one cell the target names (rules
R11, R38). -/
def Obligations.OnlyTheNamedCellChanges : Prop :=
  ∀ s t : State, step s = .next t →
    t.mem.len = s.mem.len ∧
    ∀ n : Nat, t.mem.word n ≠ s.mem.word n →
      ∃ i p, s.decode = .ok i ∧ i.writeTarget = some p ∧ NamesCell s p n

/-! ### The state machine -/

/-- The transitions of rule R114 made by a step from `Running` or `WaitingForInput`: an instruction other than HALT
completes, and if it is IN a value was unread; IN suspends on the empty queue with nothing changed; HALT; or a fault with
nothing changed. -/
def Obligations.StepMakesOneOfTheFourTransitions : Prop :=
  ∀ s t : State, s.terminal = false → step s = .next t →
    (t.status = .running ∧ ∃ i, s.decode = .ok i ∧ i ≠ .halt ∧ (∀ dst, i = .inp dst → s.cur < s.inq.length)) ∨
    ((∃ dst, s.decode = .ok (.inp dst)) ∧ s.inq.length ≤ s.cur ∧ t = { s with status := .waitingForInput }) ∨
    (s.decode = .ok .halt ∧ t = { s with ip := s.ip + 1, status := .halted (s.mem.word 0) }) ∨
    ∃ r, t = { s with status := .faulted r }

/-- A step from a terminal state changes nothing (rule R115; the spec's decision D15, log 7). -/
def Obligations.TerminalStatesAreFixed : Prop :=
  ∀ s : State, (∃ v, s.status = .halted v) ∨ (∃ r, s.status = .faulted r) → step s = .next s

/-- `Running` and `WaitingForInput` differ in nothing but what the last step returned: the step does the same from both
(rule R114). -/
def Obligations.RunningAndWaitingStepAlike : Prop :=
  ∀ s : State, step { s with status := .running } = step { s with status := .waitingForInput }

/-- A step that leaves a fault has changed nothing else (rule R137; the spec's decision D14). -/
def Obligations.FaultingStepChangesOnlyStatus : Prop :=
  ∀ (s t : State) (r : Fault), step s = .next t → t.status = .faulted r → t = { s with status := .faulted r }

/-- A step that suspends is that of an IN with the queue empty, and has changed only `STATUS`; the instance is not terminal;
a retry with nothing pushed suspends again with nothing changed, and the step after a push runs the same IN from the same
`IP` (rule R116). -/
def Obligations.SuspendedInputIsRetried : Prop :=
  ∀ s t : State, step s = .next t → t.status = .waitingForInput →
    t = { s with status := .waitingForInput } ∧ t.terminal = false ∧ s.inq.length ≤ s.cur ∧
    ∃ dst, s.decode = .ok (.inp dst) ∧ step t = .next t ∧
      ∀ v, step (t.pushInput v) = exec (.inp dst) (t.pushInput v)

/-- HALT is the only instruction that produces `Halt(value)`, and the value is `M[0]` (rule R104). -/
def Obligations.OnlyHaltHalts : Prop :=
  ∀ (s t : State) (v : Word), s.terminal = false → step s = .next t → t.status = .halted v →
    s.decode = .ok .halt ∧ v = s.mem.word 0

/-- Only ARB changes `RB`, and no host operation on a constructed instance but a step does (rules R13, R100). -/
def Obligations.OnlyArbChangesRb : Prop :=
  (∀ s t : State, step s = .next t → t.rb ≠ s.rb → ∃ p, s.decode = .ok (.arb p)) ∧
  (∀ (s : State) (o : HostOp), (o.apply s).rb ≠ s.rb → o = .step)

/-- A step leaves the output log as it was or appends the value of an OUT's source (rule R15). -/
def Obligations.OutputLogOnlyGrowsByOut : Prop :=
  ∀ s t : State, step s = .next t →
    t.out = s.out ∨ ∃ p v, s.decode = .ok (.out p) ∧ ReadsAs s p v ∧ t.out = s.out ++ [v]

/-- A step never changes the queue's contents, the length of memory or the policies, and moves the cursor only by one and
only for an IN that completes (rules R10, R11, R14). -/
def Obligations.StepKeepsQueueLengthAndPolicies : Prop :=
  ∀ s t : State, step s = .next t →
    t.inq = s.inq ∧ t.mem.len = s.mem.len ∧ t.cfg = s.cfg ∧
    (t.cur = s.cur ∨ (t.cur = s.cur + 1 ∧ s.cur < s.inq.length ∧ t.status = .running ∧ ∃ dst, s.decode = .ok (.inp dst)))

/-- `IP` after a step that decodes an instruction (rule R12), by the outcome: a step that ends in `WaitingForInput` or in a
fault leaves it unchanged; one that ends in `Running` or `Halted` leaves the value of the target of a taken jump, and for
every other instruction, with `MEM_LEN` within its bound, exactly the size more as integers. -/
def Obligations.IpAdvancesByTheSize : Prop :=
  ∀ (s t : State) (i : Instr), s.mem.len ≤ maxMemLen → s.terminal = false → s.decode = .ok i → step s = .next t →
    ((t.status = .waitingForInput ∨ ∃ r, t.status = .faulted r) → t.ip = s.ip) ∧
    ((t.status = .running ∨ ∃ v, t.status = .halted v) →
      (∃ target, TakesJump s i target ∧ ReadsAs s target t.ip) ∨
      ((∀ target, ¬ TakesJump s i target) ∧ t.ip.toInt = s.ip.toInt + i.size))

/-- An instruction ends in `ImmediateWriteTarget` exactly when it is not well formed, so that its write target is Immediate
(log 16), and it comes as far as that target (rule R135; the spec's decisions D9 to D11); and an instruction that is not
well formed never completes. So a well-formed one never raises this fault. -/
def Obligations.ImmediateWriteTargetExactlyWhenReached : Prop :=
  ∀ (i : Instr) (s t : State), exec i s = .next t →
    (t.status = .faulted .immediateWriteTarget ↔ i.wellFormed = false ∧ ReachesWriteTarget s i) ∧
    (i.wellFormed = false → t.status = .waitingForInput ∨ ∃ r, t.status = .faulted r)

/-- `ArithmeticOverflow` is raised only under policy `fault` and only by ADD, MUL and ARB (rule R136; the spec's decision
D11). -/
def Obligations.ArithmeticOverflowOnlyFromArithmetic : Prop :=
  ∀ s t : State, s.terminal = false → step s = .next t → t.status = .faulted .arithmeticOverflow →
    s.cfg.arithOverflow = .fault ∧
    ∃ i, s.decode = .ok i ∧ (i.opcode = .add ∨ i.opcode = .mul ∨ i.opcode = .arb)

/-- An instruction with no Relative-mode parameter, other than ARB, does not depend on `RB`; and with `RB` 0, Relative mode
resolves as Position mode does (rule R101). -/
def Obligations.OnlyRelativeModeReadsRb : Prop :=
  (∀ (i : Instr) (s t : State) (r : Word), (∀ p ∈ i.params, p.mode ≠ .relative) → i.opcode ≠ .arb →
    exec i s = .next t → exec i { s with rb := r } = .next { t with rb := r }) ∧
  (∀ (s : State) (v : Word), s.rb = 0 →
    s.resolveRead ⟨v, .relative⟩ = s.resolveRead ⟨v, .position⟩ ∧
    s.resolveWriteAddress ⟨v, .relative⟩ = s.resolveWriteAddress ⟨v, .position⟩)

/-! ### Invariants -/

/-- Every step from every state that meets the invariant gives a state that meets it (rules R11, R14, R16, R103). -/
def Obligations.StepKeepsTheInvariant : Prop :=
  ∀ s t : State, s.Inv → step s = .next t → t.Inv

/-- The reset state meets the invariant. -/
def Obligations.ResetMeetsTheInvariant : Prop := State.reset.Inv

/-- Every constructed instance meets the invariant, whatever the program and whatever operations the host invokes, in any
order (rules R118, R150). -/
def Obligations.EveryInstanceKeepsTheInvariant : Prop :=
  ∀ (cfg : Config) (program : List Word) (cap : Nat) (s : State), State.new cfg program cap = some s →
    ∀ ops : List HostOp, (runScript ops s).Inv

/-- An instance waits only at an IN: the host operations keep "`WaitingForInput` implies that the instruction at `IP` is an
IN" (rules R116, R145). -/
def Obligations.WaitingMeansAnInputAtIp : Prop :=
  ∀ (s : State) (o : HostOp), (s.status = .waitingForInput → s.AtInput) →
    (o.apply s).status = .waitingForInput → (o.apply s).AtInput

/-! ### The host -/

/-- A value pushed earlier or later makes no difference to a step that does not suspend (rule R92(b)). -/
def Obligations.PushCommutesWithAStep : Prop :=
  ∀ (s t : State) (v : Word), step s = .next t → t.status ≠ .waitingForInput →
    step (s.pushInput v) = .next (t.pushInput v)

/-- Suspend/resume equivalence (rule R92(b)): if an instance driven by any interleaving of steps and pushes ends in a
terminal state, then the same instance with all those values pushed first ends, after some number of steps, in the very
same state. -/
def Obligations.PreloadedInputGivesTheSameEnd : Prop :=
  ∀ (s : State) (ops : List HostOp), NoDrain ops → (runScript ops s).terminal = true →
    ∃ n, State.stepMany n (s.pushAll (pushesOf ops)) = runScript ops s

/-- Draining the log never changes what the program does: from the drained state a step does the same to every other piece
of state, and the logs of the two steps differ by exactly the drained values (rule R113). -/
def Obligations.DrainingDoesNotChangeTheProgram : Prop :=
  ∀ s : State, s.stepped = { s.drainOutput.2.stepped with out := s.drainOutput.1 ++ s.drainOutput.2.stepped.out }

/-- `new` (rule R150; the spec's decisions D1, D2, D3): refused above 2^62 words; otherwise the program from address 0, zero
above it, `MEM_LEN` the greater of the two lengths, `IP` and `RB` 0, queue and log empty, `Running`. -/
def Obligations.NewBuildsTheInstance : Prop :=
  ∀ (cfg : Config) (program : List Word) (cap : Nat),
    (maxMemLen < max program.length cap → State.new cfg program cap = none) ∧
    (max program.length cap ≤ maxMemLen → ∃ s, State.new cfg program cap = some s ∧
      s.mem.len = max program.length cap ∧
      (∀ (k : Nat) (w : Word), program[k]? = some w → s.mem.word k = w) ∧
      (∀ k, program.length ≤ k → s.mem.word k = 0) ∧
      s.ip = 0 ∧ s.rb = 0 ∧ s.inq = [] ∧ s.cur = 0 ∧ s.out = [] ∧ s.status = .running ∧ s.cfg = cfg)

/-- The reset state: every word 0, 4096 words (the model's choice of `new`'s arguments, log 4), `IP` and `RB` 0, queue and
log empty, `Running` (rule R21; `IP` is the spec's decision D1). -/
def Obligations.ResetState : Prop :=
  State.reset.mem.len = 4096 ∧ (∀ n, State.reset.mem.word n = 0) ∧ State.reset.ip = 0 ∧ State.reset.rb = 0 ∧
  State.reset.inq = [] ∧ State.reset.cur = 0 ∧ State.reset.out = [] ∧ State.reset.status = .running

/-- `push_input` appends at the tail of the queue and changes nothing else; it does not step (rule R112). -/
def Obligations.PushInputOnlyAppends : Prop :=
  ∀ (s : State) (v : Word), s.pushInput v = { s with inq := s.inq ++ [v] }

/-- `drain_output` returns the log and empties it, `peek_output` returns it, and neither changes anything else (rule R113;
that both exist is the spec's decision D22). -/
def Obligations.DrainReturnsAndClearsTheLog : Prop :=
  ∀ s : State, s.drainOutput = (s.out, { s with out := [] }) ∧ s.peekOutput = s.out

/-- `run(budget)` is repeated `step` (rule R111): it makes at most `budget` steps, every one but the last reporting
`Continue`, and returns the status it leaves; it stops before the budget only on another status (the result at the budget is
the spec's decision D16). -/
def Obligations.BudgetedRunIsRepeatedSteps : Prop :=
  ∀ (budget : Nat) (s : State),
    ∃ k, k ≤ budget ∧ (runBudget budget s).2 = s.stepMany k ∧
      (runBudget budget s).1 = (s.stepMany k).status.report ∧
      (∀ j, 0 < j → j < k → (s.stepMany j).status = .running) ∧
      (k < budget → 0 < k ∧ (runBudget budget s).1 ≠ .continue)

/-- A jump to itself that is taken, JT with a condition other than 0 or JF with the condition 0, is an infinite sequence of
`Continue` steps: the state never changes but for `STATUS`, and a run without a budget never returns (rule R157). -/
def Obligations.SelfJumpRunsForEver : Prop :=
  ∀ (s : State) (i : Instr) (target : Param), s.terminal = false → s.decode = .ok i → TakesJump s i target →
    ReadsAs s target s.ip →
    (∀ n, s.stepMany (n + 1) = { s with status := .running }) ∧ ∀ r t, ¬ RunReturns s r t

/-- The loader (rule R64; the spec's decision D20, log 13). An element is blanks, an optional sign, one or more decimal
digits, blanks; it gives the word of that value, or is refused when the value is outside 64 bits. An element of blanks is
refused. Elements are what commas separate, element by element a word of the program; one refused element refuses the text. -/
def Obligations.LoaderReadsProgramText : Prop :=
  (∀ (before after sign : List Char) (ds : List Nat) (k : Int),
    (∀ c ∈ before ++ after, c = ' ' ∨ c = '\t' ∨ c = '\n' ∨ c = '\r') → ds ≠ [] → (∀ d ∈ ds, d ≤ 9) →
    (sign = [] ∧ k = 1) ∨ (sign = ['+'] ∧ k = 1) ∨ (sign = ['-'] ∧ k = -1) →
    parseElement (before ++ sign ++ ds.map (fun d => Char.ofNat (48 + d)) ++ after) =
      if FitsWord (k * (ds.foldl (fun n d => 10 * n + d) 0 : Nat)) then
        some (wordOf (k * (ds.foldl (fun n d => 10 * n + d) 0 : Nat)))
      else none) ∧
  (∀ e : List Char, (∀ c ∈ e, c = ' ' ∨ c = '\t' ∨ c = '\n' ∨ c = '\r') → parseElement e = none) ∧
  (∀ e : List Char, ',' ∉ e →
    parseProgram e = (parseElement e).map (fun w => [w]) ∧
    ∀ rest, parseProgram (e ++ ',' :: rest) =
      (parseElement e).bind (fun w => (parseProgram rest).map (fun ws => w :: ws)))
end

