-- ==== Sys2Proof/Laws/Decode.lean ====
section
/-! SUPPORT. What the decoder and the encoder answer, part by part. -/

namespace Sys2Proof

@[simp] theorem Opcode.ofCode_code (op : Opcode) : Opcode.ofCode op.code = some op := by cases op <;> rfl

/-- The opcode map read backwards: a number in it is the code of the opcode it gives. -/
theorem Opcode.code_of_ofCode {n : Nat} {op : Opcode} (h : Opcode.ofCode n = some op) : op.code = n := by
  unfold Opcode.ofCode at h
  split at h <;> first | (injection h with h; subst h; rfl) | cases h

/-- The numbers below 100 in no row of the map are 0 and 10 to 98 (rule R56). -/
theorem Opcode.ofCode_eq_none_iff {n : Nat} (h : n < 100) : Opcode.ofCode n = none ↔ n = 0 ∨ (10 ≤ n ∧ n ≤ 98) := by
  revert n
  decide

@[simp] theorem Mode.ofDigit_code (m : Mode) : Mode.ofDigit m.code = m := by cases m <;> rfl

/-- A checked digit (rule R57) is the code of the mode it selects. -/
theorem Mode.code_ofDigit {d : Nat} (h : d ≤ 2) : (Mode.ofDigit d).code = d := by
  interval_cases d <;> rfl

theorem Mode.code_le_two (m : Mode) : m.code ≤ 2 := by cases m <;> decide

theorem Opcode.code_lt (op : Opcode) : op.code < 100 := by cases op <;> decide

theorem Opcode.operandCount_le (op : Opcode) : op.operandCount ≤ 3 := by cases op <;> decide

@[simp] theorem Instr.length_params (i : Instr) : i.params.length = i.opcode.operandCount := by cases i <;> rfl

theorem Instr.modeDigit_le_two (i : Instr) (k : Nat) : i.modeDigit k ≤ 2 := by
  unfold Instr.modeDigit
  split
  · exact Mode.code_le_two _
  · omega

/-- The head an instruction's opcode word decodes to. -/
def Instr.head (i : Instr) : Head :=
  { op := i.opcode
    m1 := .ofDigit (i.modeDigit 0)
    m2 := .ofDigit (i.modeDigit 1)
    m3 := .ofDigit (i.modeDigit 2) }

/-- What steps 5 and 6 of rule R61 accept, and what they give. -/
theorem decodeModes_ok_iff {cfg : Config} {op : Opcode} {w : Nat} {h : Head} :
    decodeModes cfg op w = .ok h ↔
      (∀ d ∈ checkedDigits cfg op w, d ≤ 2) ∧ (cfg.highDigits = .fault → w / 100000 = 0) ∧
        h = ⟨op, .ofDigit (digit 2 w), .ofDigit (digit 3 w), .ofDigit (digit 4 w)⟩ := by
  unfold decodeModes
  split
  case isTrue hc =>
    simp only [List.any_eq_true, decide_eq_true_eq] at hc
    obtain ⟨d, hd, h2⟩ := hc
    simp only [reduceCtorEq, false_iff, not_and]
    exact fun hall => absurd (hall d hd) (by omega)
  case isFalse hc =>
    simp only [List.any_eq_true, decide_eq_true_eq, not_exists, not_and, not_lt] at hc
    split
    case isTrue hh =>
      simp only [reduceCtorEq, false_iff, not_and]
      exact fun _ h0 => absurd (h0 hh.1) hh.2
    case isFalse hh =>
      simp only [not_and, not_not] at hh
      constructor
      · intro h
        injection h with h
        exact ⟨hc, hh, h.symm⟩
      · rintro ⟨_, _, rfl⟩
        rfl

/-- Steps 5 and 6 of rule R61 raise only `UnknownParameterMode`. -/
theorem decodeModes_error {cfg : Config} {op : Opcode} {w : Nat} {e : DecodeError}
    (h : decodeModes cfg op w = .error e) : e = .unknownParameterMode := by
  unfold decodeModes at h
  split at h
  · injection h with h; exact h.symm
  · split at h
    · injection h with h; exact h.symm
    · cases h

/-- Steps 7 to 9 of rule R61: with enough words, the instruction's parameters are the next words under the head's modes. -/
theorem takeParams_ok_iff {h : Head} {ws rest : List Word} {i : Instr} :
    takeParams h ws = .ok (i, rest) ↔
      i.opcode = h.op ∧ ws = i.params.map Param.value ++ rest ∧
        i.params.map Param.mode = [h.m1, h.m2, h.m3].take h.op.operandCount := by
  obtain ⟨op, m1, m2, m3⟩ := h
  constructor
  · intro hd
    cases op <;> simp only [takeParams] at hd
    case halt => simp only [Except.ok.injEq, Prod.mk.injEq] at hd; obtain ⟨rfl, rfl⟩ := hd; simp [Instr.opcode, Instr.params, Opcode.operandCount]
    case add | mul | lt | eq =>
      unfold takeThree at hd
      split at hd <;> simp only [reduceCtorEq, Except.ok.injEq, Prod.mk.injEq] at hd
      obtain ⟨rfl, rfl⟩ := hd
      simp [Instr.opcode, Instr.params, Opcode.operandCount]
    case inp | out | arb =>
      unfold takeOne at hd
      split at hd <;> simp only [reduceCtorEq, Except.ok.injEq, Prod.mk.injEq] at hd
      obtain ⟨rfl, rfl⟩ := hd
      simp [Instr.opcode, Instr.params, Opcode.operandCount]
    case jt | jf =>
      unfold takeTwo at hd
      split at hd <;> simp only [reduceCtorEq, Except.ok.injEq, Prod.mk.injEq] at hd
      obtain ⟨rfl, rfl⟩ := hd
      simp [Instr.opcode, Instr.params, Opcode.operandCount]
  · rintro ⟨rfl, rfl, hm⟩
    cases i
    case halt => rfl
    all_goals
      simp only [Instr.opcode, Instr.params, Opcode.operandCount, List.map_cons, List.map_nil, List.take_succ_cons,
        List.take_zero, List.cons.injEq, and_true] at hm
      simp [takeParams, takeThree, takeTwo, takeOne, Instr.params, Instr.opcode, ← hm]

/-- Step 7 of rule R61: too few parameter words is `MemoryOverflow`, the one fault of the last steps. -/
theorem takeParams_error_iff {h : Head} {ws : List Word} {e : DecodeError} :
    takeParams h ws = .error e ↔ e = .memoryOverflow ∧ ws.length < h.op.operandCount := by
  obtain ⟨op, m1, m2, m3⟩ := h
  rcases ws with _ | ⟨w1, _ | ⟨w2, _ | ⟨w3, ws⟩⟩⟩ <;> cases op <;>
    simp [takeParams, takeThree, takeTwo, takeOne, Opcode.operandCount, eq_comm]

/-- What steps 3 to 6 of rule R61 accept: a non-negative word whose two low digits are the opcode's code and whose digits
steps 5 and 6 accept. -/
theorem decodeHead_ok_iff {cfg : Config} {w : Word} {h : Head} :
    decodeHead cfg w = .ok h ↔
      0 ≤ w.toInt ∧ w.toInt % 100 = h.op.code ∧ decodeModes cfg h.op w.toInt.toNat = .ok h := by
  unfold decodeHead
  split
  case isTrue hlt =>
    simp only [reduceCtorEq, false_iff]
    omega
  case isFalse hlt =>
    split
    case h_1 hn =>
      simp only [reduceCtorEq, false_iff, not_and]
      intro _ hc
      rw [show w.toInt.toNat % 100 = h.op.code by omega, Opcode.ofCode_code] at hn
      cases hn
    case h_2 op ho =>
      have hc := Opcode.code_of_ofCode ho
      constructor
      · intro hm
        have hop : h.op = op := by rw [(decodeModes_ok_iff.mp hm).2.2]
        exact ⟨by omega, by rw [hop]; omega, by rw [hop]; exact hm⟩
      · rintro ⟨_, h1, h2⟩
        rw [show w.toInt.toNat % 100 = h.op.code by omega, Opcode.ofCode_code] at ho
        injection ho with ho
        rw [← ho]
        exact h2

/-- Decoding succeeds when the opcode word and then the parameter words are accepted (rule R61). -/
theorem decodeWords_cons_ok_iff {cfg : Config} {w : Word} {ws rest : List Word} {i : Instr} :
    decodeWords cfg (w :: ws) = .ok (i, rest) ↔ ∃ h, decodeHead cfg w = .ok h ∧ takeParams h ws = .ok (i, rest) := by
  unfold decodeWords
  cases hh : decodeHead cfg w <;> simp [hh]

/-- Decoding fails with the opcode word's fault, or else with the parameter words' (rule R61). -/
theorem decodeWords_cons_error_iff {cfg : Config} {w : Word} {ws : List Word} {e : DecodeError} :
    decodeWords cfg (w :: ws) = .error e ↔
      decodeHead cfg w = .error e ∨ ∃ h, decodeHead cfg w = .ok h ∧ takeParams h ws = .error e := by
  unfold decodeWords
  cases hh : decodeHead cfg w <;> simp [hh]

end Sys2Proof
end

