-- ==== Sys2Proof/Laws/State.lean ====
section
/-! SUPPORT. One lemma per field per update of State, true by definition, so that no later proof unfolds a record
update. -/

namespace Sys2Proof.Machine

variable (s : State)

@[simp] theorem State.advance_mem (size : Nat) : (s.advance size).mem = s.mem := rfl
@[simp] theorem State.advance_ip (size : Nat) : (s.advance size).ip = s.ip + BitVec.ofNat 64 size := rfl
@[simp] theorem State.advance_rb (size : Nat) : (s.advance size).rb = s.rb := rfl
@[simp] theorem State.advance_inq (size : Nat) : (s.advance size).inq = s.inq := rfl
@[simp] theorem State.advance_cur (size : Nat) : (s.advance size).cur = s.cur := rfl
@[simp] theorem State.advance_out (size : Nat) : (s.advance size).out = s.out := rfl
@[simp] theorem State.advance_status (size : Nat) : (s.advance size).status = s.status := rfl
@[simp] theorem State.advance_cfg (size : Nat) : (s.advance size).cfg = s.cfg := rfl

@[simp] theorem State.jumpTo_mem (w : Word) : (s.jumpTo w).mem = s.mem := rfl
@[simp] theorem State.jumpTo_ip (w : Word) : (s.jumpTo w).ip = w := rfl
@[simp] theorem State.jumpTo_rb (w : Word) : (s.jumpTo w).rb = s.rb := rfl
@[simp] theorem State.jumpTo_inq (w : Word) : (s.jumpTo w).inq = s.inq := rfl
@[simp] theorem State.jumpTo_cur (w : Word) : (s.jumpTo w).cur = s.cur := rfl
@[simp] theorem State.jumpTo_out (w : Word) : (s.jumpTo w).out = s.out := rfl
@[simp] theorem State.jumpTo_status (w : Word) : (s.jumpTo w).status = s.status := rfl
@[simp] theorem State.jumpTo_cfg (w : Word) : (s.jumpTo w).cfg = s.cfg := rfl

@[simp] theorem State.setRb_mem (w : Word) : (s.setRb w).mem = s.mem := rfl
@[simp] theorem State.setRb_ip (w : Word) : (s.setRb w).ip = s.ip := rfl
@[simp] theorem State.setRb_rb (w : Word) : (s.setRb w).rb = w := rfl
@[simp] theorem State.setRb_inq (w : Word) : (s.setRb w).inq = s.inq := rfl
@[simp] theorem State.setRb_cur (w : Word) : (s.setRb w).cur = s.cur := rfl
@[simp] theorem State.setRb_out (w : Word) : (s.setRb w).out = s.out := rfl
@[simp] theorem State.setRb_status (w : Word) : (s.setRb w).status = s.status := rfl
@[simp] theorem State.setRb_cfg (w : Word) : (s.setRb w).cfg = s.cfg := rfl

@[simp] theorem State.writeMem_mem (a : Nat) (w : Word) : (s.writeMem a w).mem = s.mem.write a w := rfl
@[simp] theorem State.writeMem_ip (a : Nat) (w : Word) : (s.writeMem a w).ip = s.ip := rfl
@[simp] theorem State.writeMem_rb (a : Nat) (w : Word) : (s.writeMem a w).rb = s.rb := rfl
@[simp] theorem State.writeMem_inq (a : Nat) (w : Word) : (s.writeMem a w).inq = s.inq := rfl
@[simp] theorem State.writeMem_cur (a : Nat) (w : Word) : (s.writeMem a w).cur = s.cur := rfl
@[simp] theorem State.writeMem_out (a : Nat) (w : Word) : (s.writeMem a w).out = s.out := rfl
@[simp] theorem State.writeMem_status (a : Nat) (w : Word) : (s.writeMem a w).status = s.status := rfl
@[simp] theorem State.writeMem_cfg (a : Nat) (w : Word) : (s.writeMem a w).cfg = s.cfg := rfl

@[simp] theorem State.consumeInput_mem : (s.consumeInput).mem = s.mem := rfl
@[simp] theorem State.consumeInput_ip : (s.consumeInput).ip = s.ip := rfl
@[simp] theorem State.consumeInput_rb : (s.consumeInput).rb = s.rb := rfl
@[simp] theorem State.consumeInput_inq : (s.consumeInput).inq = s.inq := rfl
@[simp] theorem State.consumeInput_cur : (s.consumeInput).cur = s.cur + 1 := rfl
@[simp] theorem State.consumeInput_out : (s.consumeInput).out = s.out := rfl
@[simp] theorem State.consumeInput_status : (s.consumeInput).status = s.status := rfl
@[simp] theorem State.consumeInput_cfg : (s.consumeInput).cfg = s.cfg := rfl

@[simp] theorem State.appendOut_mem (w : Word) : (s.appendOut w).mem = s.mem := rfl
@[simp] theorem State.appendOut_ip (w : Word) : (s.appendOut w).ip = s.ip := rfl
@[simp] theorem State.appendOut_rb (w : Word) : (s.appendOut w).rb = s.rb := rfl
@[simp] theorem State.appendOut_inq (w : Word) : (s.appendOut w).inq = s.inq := rfl
@[simp] theorem State.appendOut_cur (w : Word) : (s.appendOut w).cur = s.cur := rfl
@[simp] theorem State.appendOut_out (w : Word) : (s.appendOut w).out = s.out ++ [w] := rfl
@[simp] theorem State.appendOut_status (w : Word) : (s.appendOut w).status = s.status := rfl
@[simp] theorem State.appendOut_cfg (w : Word) : (s.appendOut w).cfg = s.cfg := rfl

@[simp] theorem State.latch_mem (st : Status) : (s.latch st).mem = s.mem := rfl
@[simp] theorem State.latch_ip (st : Status) : (s.latch st).ip = s.ip := rfl
@[simp] theorem State.latch_rb (st : Status) : (s.latch st).rb = s.rb := rfl
@[simp] theorem State.latch_inq (st : Status) : (s.latch st).inq = s.inq := rfl
@[simp] theorem State.latch_cur (st : Status) : (s.latch st).cur = s.cur := rfl
@[simp] theorem State.latch_out (st : Status) : (s.latch st).out = s.out := rfl
@[simp] theorem State.latch_status (st : Status) : (s.latch st).status = st := rfl
@[simp] theorem State.latch_cfg (st : Status) : (s.latch st).cfg = s.cfg := rfl

@[simp] theorem State.takeFault_mem (r : Fault) : (s.takeFault r).mem = s.mem := rfl
@[simp] theorem State.takeFault_ip (r : Fault) : (s.takeFault r).ip = s.ip := rfl
@[simp] theorem State.takeFault_rb (r : Fault) : (s.takeFault r).rb = s.rb := rfl
@[simp] theorem State.takeFault_inq (r : Fault) : (s.takeFault r).inq = s.inq := rfl
@[simp] theorem State.takeFault_cur (r : Fault) : (s.takeFault r).cur = s.cur := rfl
@[simp] theorem State.takeFault_out (r : Fault) : (s.takeFault r).out = s.out := rfl
@[simp] theorem State.takeFault_status (r : Fault) : (s.takeFault r).status = .faulted r := rfl
@[simp] theorem State.takeFault_cfg (r : Fault) : (s.takeFault r).cfg = s.cfg := rfl

@[simp] theorem State.pushInput_mem (w : Word) : (s.pushInput w).mem = s.mem := rfl
@[simp] theorem State.pushInput_ip (w : Word) : (s.pushInput w).ip = s.ip := rfl
@[simp] theorem State.pushInput_rb (w : Word) : (s.pushInput w).rb = s.rb := rfl
@[simp] theorem State.pushInput_inq (w : Word) : (s.pushInput w).inq = s.inq ++ [w] := rfl
@[simp] theorem State.pushInput_cur (w : Word) : (s.pushInput w).cur = s.cur := rfl
@[simp] theorem State.pushInput_out (w : Word) : (s.pushInput w).out = s.out := rfl
@[simp] theorem State.pushInput_status (w : Word) : (s.pushInput w).status = s.status := rfl
@[simp] theorem State.pushInput_cfg (w : Word) : (s.pushInput w).cfg = s.cfg := rfl

@[simp] theorem State.drainOutput_mem : s.drainOutput.2.mem = s.mem := rfl
@[simp] theorem State.drainOutput_ip : s.drainOutput.2.ip = s.ip := rfl
@[simp] theorem State.drainOutput_rb : s.drainOutput.2.rb = s.rb := rfl
@[simp] theorem State.drainOutput_inq : s.drainOutput.2.inq = s.inq := rfl
@[simp] theorem State.drainOutput_cur : s.drainOutput.2.cur = s.cur := rfl
@[simp] theorem State.drainOutput_out : s.drainOutput.2.out = [] := rfl
@[simp] theorem State.drainOutput_status : s.drainOutput.2.status = s.status := rfl
@[simp] theorem State.drainOutput_cfg : s.drainOutput.2.cfg = s.cfg := rfl

/-- A state is its fields. -/
theorem State.ext_fields {s t : State} (hm : s.mem = t.mem) (hi : s.ip = t.ip) (hr : s.rb = t.rb) (hq : s.inq = t.inq)
    (hc : s.cur = t.cur) (ho : s.out = t.out) (hs : s.status = t.status) (hg : s.cfg = t.cfg) : s = t := by
  cases s; cases t; simp_all

/-- The non-terminal statuses are `Running` and `WaitingForInput` (rule R16). -/
theorem State.terminal_eq_false_iff {s : State} :
    s.terminal = false ↔ s.status = .running ∨ s.status = .waitingForInput := by
  unfold State.terminal; cases s.status <;> simp

/-- The terminal statuses are `Halted(v)` and `Faulted(r)` (rule R16). -/
theorem State.terminal_eq_true_iff {s : State} :
    s.terminal = true ↔ (∃ v, s.status = .halted v) ∨ ∃ r, s.status = .faulted r := by
  unfold State.terminal; cases s.status <;> simp

end Sys2Proof.Machine
end

