-- ==== Sys2Proof/Laws/Memory.lean ====
section
/-! SUPPORT. The laws of memory: a read after a write, that a write leaves every other address alone, that every memory
operation keeps the canonical form, and that equal memories are equal data. -/

namespace Sys2Proof.Machine

theorem lookupCell_eq_unlisted {a : Nat} {cs : List (Nat × Word)} (h : ∀ c ∈ cs, c.1 ≠ a) :
    lookupCell a cs = unlistedWord := by
  induction cs with
  | nil => rfl
  | cons c cs ih =>
    simp only [lookupCell, if_neg (h c (by simp))]
    exact ih fun d hd => h d (by simp [hd])

theorem lookupCell_filter_ne {a b : Nat} (h : b ≠ a) (cs : List (Nat × Word)) :
    lookupCell b (cs.filter (fun c => c.1 != a)) = lookupCell b cs := by
  induction cs with
  | nil => rfl
  | cons c cs ih =>
    by_cases hc : c.1 = a
    · simp [lookupCell, hc, ih, Ne.symm h]
    · simp [lookupCell, hc, ih]

theorem lookupCell_insert_same {a : Nat} {v : Word} {cs : List (Nat × Word)} (h : ∀ c ∈ cs, c.1 ≠ a) :
    lookupCell a (insertCell a v cs) = v := by
  induction cs with
  | nil => simp [insertCell, lookupCell]
  | cons c cs ih =>
    have hc : c.1 ≠ a := h c (by simp)
    unfold insertCell
    split
    · simp [lookupCell]
    · simpa [lookupCell, hc] using ih fun d hd => h d (by simp [hd])

theorem lookupCell_insert_other {a b : Nat} (v : Word) (h : b ≠ a) (cs : List (Nat × Word)) :
    lookupCell b (insertCell a v cs) = lookupCell b cs := by
  induction cs with
  | nil => simp [insertCell, lookupCell, Ne.symm h]
  | cons c cs ih =>
    unfold insertCell
    split
    · simp [lookupCell, Ne.symm h]
    · simp [lookupCell, ih]

theorem mem_insertCell {a : Nat} {v : Word} {c : Nat × Word} {cs : List (Nat × Word)} :
    c ∈ insertCell a v cs ↔ c = (a, v) ∨ c ∈ cs := by
  induction cs with
  | nil => simp [insertCell]
  | cons d cs ih =>
    unfold insertCell
    split <;> simp [ih, or_left_comm]

theorem insertCell_sorted {a : Nat} {v : Word} {cs : List (Nat × Word)} (hs : cs.Pairwise (fun c d => c.1 < d.1))
    (ha : ∀ c ∈ cs, c.1 ≠ a) : (insertCell a v cs).Pairwise (fun c d => c.1 < d.1) := by
  induction cs with
  | nil => simp [insertCell]
  | cons c cs ih =>
    obtain ⟨hc, hs'⟩ := List.pairwise_cons.mp hs
    have hca : c.1 ≠ a := ha c (by simp)
    unfold insertCell
    split
    case isTrue hlt =>
      refine List.pairwise_cons.mpr ⟨fun d hd => ?_, hs⟩
      rcases List.mem_cons.mp hd with rfl | hd
      · exact hlt
      · exact hlt.trans (hc d hd)
    case isFalse hlt =>
      refine List.pairwise_cons.mpr ⟨fun d hd => ?_, ih hs' fun d hd => ha d (by simp [hd])⟩
      rcases mem_insertCell.mp hd with rfl | hd
      · show c.1 < a
        omega
      · exact hc d hd

@[simp] theorem Memory.len_write (m : Memory) (a : Nat) (v : Word) : (m.write a v).len = m.len := rfl

/-- Read after write (rule R32): the written word is read back. -/
@[simp] theorem Memory.word_write_same (m : Memory) (a : Nat) (v : Word) : (m.write a v).word a = v := by
  have hne : ∀ c ∈ m.cells.filter (fun c => c.1 != a), c.1 ≠ a := by simp
  unfold Memory.write Memory.word
  dsimp only
  split
  case isTrue hv => rw [lookupCell_eq_unlisted hne, hv]
  case isFalse => exact lookupCell_insert_same hne

/-- A write leaves every other address alone (rule R38). -/
theorem Memory.word_write_other (m : Memory) {a b : Nat} (v : Word) (h : b ≠ a) :
    (m.write a v).word b = m.word b := by
  unfold Memory.write Memory.word
  dsimp only
  split
  · exact lookupCell_filter_ne h _
  · rw [lookupCell_insert_other v h, lookupCell_filter_ne h]

/-- A write inside memory keeps the canonical form. -/
theorem Memory.wf_write {m : Memory} (h : m.wf) {a : Nat} (ha : a < m.len) (v : Word) : (m.write a v).wf := by
  have hs := h.1.filter (fun c => c.1 != a)
  have hne : ∀ c ∈ m.cells.filter (fun c => c.1 != a), c.1 ≠ a := by simp
  have hin : ∀ c ∈ m.cells.filter (fun c => c.1 != a), c.1 < m.len ∧ c.2 ≠ unlistedWord :=
    fun c hc => h.2 c (List.mem_filter.mp hc).1
  unfold Memory.write Memory.wf
  dsimp only
  split
  case isTrue => exact ⟨hs, hin⟩
  case isFalse hv =>
    refine ⟨insertCell_sorted hs hne, fun c hc => ?_⟩
    rcases mem_insertCell.mp hc with rfl | hc
    · exact ⟨ha, hv⟩
    · exact hin c hc

theorem lookupCell_of_mem {cs : List (Nat × Word)} (hs : cs.Pairwise (fun c d => c.1 < d.1)) {c : Nat × Word}
    (hc : c ∈ cs) : lookupCell c.1 cs = c.2 := by
  induction cs with
  | nil => cases hc
  | cons d cs ih =>
    obtain ⟨hd, hs'⟩ := List.pairwise_cons.mp hs
    rcases List.mem_cons.mp hc with rfl | hc
    · simp [lookupCell]
    · simp [lookupCell, (hd c hc).ne, ih hs' hc]

theorem mem_of_lookupCell_ne {a : Nat} {cs : List (Nat × Word)} (h : lookupCell a cs ≠ unlistedWord) :
    (a, lookupCell a cs) ∈ cs := by
  induction cs with
  | nil => exact absurd rfl h
  | cons c cs ih =>
    by_cases hc : c.1 = a
    · simp [lookupCell, ← hc]
    · simp only [lookupCell, if_neg hc] at h ⊢
      exact List.mem_cons_of_mem _ (ih h)

/-- Equal memories are equal data: two canonical memories of one length that read alike are the same. -/
theorem Memory.eq_of_word_eq {m n : Memory} (hm : m.wf) (hn : n.wf) (hl : m.len = n.len)
    (hw : ∀ a, m.word a = n.word a) : m = n := by
  have sub : ∀ {m n : Memory}, m.wf → n.wf → (∀ a, m.word a = n.word a) → ∀ c ∈ m.cells, c ∈ n.cells := by
    intro m n hm hn hw c hc
    have hv : n.word c.1 = c.2 := (hw c.1).symm.trans (lookupCell_of_mem hm.1 hc)
    have := mem_of_lookupCell_ne (a := c.1) (cs := n.cells) (by
      show n.word c.1 ≠ unlistedWord
      rw [hv]; exact (hm.2 c hc).2)
    rwa [show lookupCell c.1 n.cells = c.2 from hv] at this
  have ir : Std.Irrefl (fun c d : Nat × Word => c.1 < d.1) := ⟨fun c => Nat.lt_irrefl _⟩
  have asym : Std.Asymm (fun c d : Nat × Word => c.1 < d.1) := ⟨fun c d => Nat.lt_asymm⟩
  have nd : ∀ {m : Memory}, m.wf → m.cells.Nodup := fun h => h.1.imp fun hlt heq => by simp [heq] at hlt
  have hp : m.cells.Perm n.cells := (List.perm_ext_iff_of_nodup (nd hm) (nd hn)).mpr fun c =>
    ⟨sub hm hn hw c, sub hn hm (fun a => (hw a).symm) c⟩
  have hcells : m.cells = n.cells := hp.eq_of_pairwise (fun c d _ _ h1 h2 => absurd h2 (Nat.lt_asymm h1)) hm.1 hn.1
  cases m; cases n; simp_all

theorem mem_loadCells {c : Nat × Word} {ws : List Word} {a : Nat} (h : c ∈ loadCells a ws) :
    a ≤ c.1 ∧ c.1 < a + ws.length ∧ c.2 ≠ unlistedWord := by
  induction ws generalizing a with
  | nil => cases h
  | cons w ws ih =>
    unfold loadCells at h
    split at h
    · obtain ⟨h1, h2, h3⟩ := ih h
      simp only [List.length_cons]
      exact ⟨by omega, by omega, h3⟩
    case isFalse hw =>
      rcases List.mem_cons.mp h with rfl | h
      · simp [hw]
      · obtain ⟨h1, h2, h3⟩ := ih h
        simp only [List.length_cons]
        exact ⟨by omega, by omega, h3⟩

theorem loadCells_sorted (a : Nat) (ws : List Word) : (loadCells a ws).Pairwise (fun c d => c.1 < d.1) := by
  induction ws generalizing a with
  | nil => exact .nil
  | cons w ws ih =>
    unfold loadCells
    split
    · exact ih _
    · exact List.pairwise_cons.mpr ⟨fun d hd => (mem_loadCells hd).1, ih _⟩

theorem lookupCell_loadCells (ws : List Word) (a n : Nat) :
    lookupCell (a + n) (loadCells a ws) = ws[n]?.getD unlistedWord := by
  induction ws generalizing a n with
  | nil => rfl
  | cons w ws ih =>
    unfold loadCells
    cases n with
    | zero =>
      split
      case isTrue hw =>
        simp only [Nat.add_zero, List.getElem?_cons_zero, Option.getD_some, hw]
        exact lookupCell_eq_unlisted fun c hc => by have := (mem_loadCells hc).1; omega
      case isFalse => simp [lookupCell]
    | succ n =>
      have := ih (a + 1) n
      rw [show a + 1 + n = a + (n + 1) by omega] at this
      split <;> simp [lookupCell, this]

/-- A loaded program is memory in canonical form (rule R150). -/
theorem Memory.wf_load (ws : List Word) {len : Nat} (h : ws.length ≤ len) : Memory.wf ⟨len, loadCells 0 ws⟩ :=
  ⟨loadCells_sorted 0 ws, fun c hc => by
    obtain ⟨_, h2, h3⟩ := mem_loadCells hc
    exact ⟨show c.1 < len by omega, h3⟩⟩

/-- The words of a loaded program, and 0 above them (rule R21). -/
theorem Memory.word_load (ws : List Word) (len n : Nat) :
    Memory.word ⟨len, loadCells 0 ws⟩ n = ws[n]?.getD unlistedWord := by
  simpa [Memory.word] using lookupCell_loadCells ws 0 n

@[simp] theorem Memory.len_writeWords (ws : List Word) (m : Memory) (a : Nat) : (m.writeWords a ws).len = m.len := by
  induction ws generalizing m a with
  | nil => rfl
  | cons w ws ih => simp [Memory.writeWords, ih]

/-- Writing words inside memory keeps the canonical form. -/
theorem Memory.wf_writeWords (ws : List Word) {m : Memory} (h : m.wf) {a : Nat} (ha : a + ws.length ≤ m.len) :
    (m.writeWords a ws).wf := by
  induction ws generalizing m a with
  | nil => exact h
  | cons w ws ih =>
    simp only [List.length_cons] at ha
    exact ih (m := m.write a w) (Memory.wf_write h (by omega) w) (by simp only [Memory.len_write]; omega)

/-- `MemRead` inside memory gives the word, outside it the fault `InvalidAddress` (rule R32). -/
theorem Memory.read_ok_iff {m : Memory} {addr : Int} {v : Word} :
    m.read addr = .ok v ↔ ∃ n : Nat, addr = n ∧ n < m.len ∧ v = m.word n := by
  unfold Memory.read
  constructor
  · intro h
    split at h
    case isTrue hv =>
      refine ⟨addr.toNat, by omega, by omega, ?_⟩
      injection h with h
      exact h.symm
    case isFalse => cases h
  · rintro ⟨n, rfl, hn, rfl⟩
    rw [if_pos ⟨by omega, by omega⟩, Int.toNat_natCast]

theorem Memory.read_error_iff {m : Memory} {addr : Int} {r : Fault} :
    m.read addr = .error r ↔ r = .invalidAddress ∧ (addr < 0 ∨ (m.len : Int) ≤ addr) := by
  unfold Memory.read
  split
  case isTrue hv =>
    obtain ⟨h0, h1⟩ := hv
    simp only [reduceCtorEq, false_iff, not_and, not_or, not_lt, not_le]
    exact fun _ => ⟨h0, h1⟩
  case isFalse hv =>
    constructor
    · intro h
      injection h with h
      exact ⟨h.symm, by unfold Memory.Valid at hv; omega⟩
    · rintro ⟨rfl, _⟩
      rfl

theorem Memory.length_wordsFrom (m : Memory) (n a : Nat) : (m.wordsFrom a n).length = min n (m.len - a) := by
  induction n generalizing a with
  | zero => simp [Memory.wordsFrom]
  | succ n ih =>
    unfold Memory.wordsFrom
    split
    · simp only [List.length_cons, ih]; omega
    · simp only [List.length_nil]; omega

theorem Memory.getElem?_wordsFrom (m : Memory) (n a k : Nat) :
    (m.wordsFrom a n)[k]? = if k < n ∧ a + k < m.len then some (m.word (a + k)) else none := by
  induction n generalizing a k with
  | zero => simp [Memory.wordsFrom]
  | succ n ih =>
    unfold Memory.wordsFrom
    cases k with
    | zero => by_cases h : a < m.len <;> simp [h]
    | succ k =>
      by_cases h : a < m.len
      · simp [h, ih, show a + 1 + k = a + (k + 1) by omega]
      · simp [h, show ¬ a + (k + 1) < m.len by omega]

theorem State.reset_mem_wf : State.reset.mem.wf := ⟨.nil, fun _ h => by cases h⟩

end Sys2Proof.Machine
end

