-- ==== Sys2Proof/Laws/Operands.lean ====
section
/-! SUPPORT. Everything the Addressing Unit and `arith` can answer, in the terms of Safety.lean. -/

namespace Sys2Proof.Machine

/-- A source operand resolves to `v` exactly when the parameter reads as `v` (rule R33). -/
theorem State.resolveRead_ok_iff {s : State} {p : Param} {v : Word} : s.resolveRead p = .ok v ↔ ReadsAs s p v := by
  obtain ⟨value, mode⟩ := p
  cases mode
  · simp [State.resolveRead, ReadsAs, State.effectiveAddress, Memory.read_ok_iff]
  · simp [State.resolveRead, ReadsAs, State.effectiveAddress, eq_comm]
  · simp [State.resolveRead, ReadsAs, State.effectiveAddress, Memory.read_ok_iff]

/-- A source operand raises only `InvalidAddress`, exactly when its effective address is out of range (rule R33). -/
theorem State.resolveRead_error_iff {s : State} {p : Param} {r : Fault} :
    s.resolveRead p = .error r ↔ r = .invalidAddress ∧ OutOfRange s p := by
  obtain ⟨value, mode⟩ := p
  cases mode <;> simp [State.resolveRead, OutOfRange, State.effectiveAddress, Memory.read_error_iff]

theorem State.boundedAddress_ok_iff {s : State} {addr : Int} {n : Nat} :
    s.boundedAddress addr = .ok n ↔ addr = n ∧ n < s.mem.len := by
  unfold State.boundedAddress
  split
  case isTrue h =>
    obtain ⟨h0, h1⟩ := h
    constructor
    · intro h
      injection h with h
      omega
    · rintro ⟨rfl, _⟩
      simp
  case isFalse h =>
    unfold Memory.Valid at h
    simp only [reduceCtorEq, false_iff]
    omega

theorem State.boundedAddress_error_iff {s : State} {addr : Int} {r : Fault} :
    s.boundedAddress addr = .error r ↔ r = .invalidAddress ∧ (addr < 0 ∨ (s.mem.len : Int) ≤ addr) := by
  unfold State.boundedAddress
  split
  case isTrue h =>
    obtain ⟨h0, h1⟩ := h
    simp only [reduceCtorEq, false_iff]
    omega
  case isFalse h =>
    unfold Memory.Valid at h
    constructor
    · intro h
      injection h with h
      exact ⟨h.symm, by omega⟩
    · rintro ⟨rfl, _⟩
      rfl

/-- A destination resolves to the cell it names (rule R34). -/
theorem State.resolveWriteAddress_ok_iff {s : State} {p : Param} {n : Nat} :
    s.resolveWriteAddress p = .ok n ↔ NamesCell s p n := by
  obtain ⟨value, mode⟩ := p
  cases mode <;>
    simp [State.resolveWriteAddress, NamesCell, State.effectiveAddress, State.boundedAddress_ok_iff]

/-- A destination raises `ImmediateWriteTarget` in Immediate mode and `InvalidAddress` out of range, nothing else (rule
R34). -/
theorem State.resolveWriteAddress_error_iff {s : State} {p : Param} {r : Fault} :
    s.resolveWriteAddress p = .error r ↔
      (r = .immediateWriteTarget ∧ p.mode = .immediate) ∨ (r = .invalidAddress ∧ OutOfRange s p) := by
  obtain ⟨value, mode⟩ := p
  cases mode
  case immediate => simp [State.resolveWriteAddress, OutOfRange, State.effectiveAddress, eq_comm]
  all_goals simp [State.resolveWriteAddress, OutOfRange, State.effectiveAddress, State.boundedAddress_error_iff]

/-- The word of an exact integer that fits has that value (rule R85). -/
theorem toInt_wordOf {v : Int} (h : FitsWord v) : (wordOf v).toInt = v := by
  obtain ⟨h0, h1⟩ := h
  unfold minWord at h0
  unfold maxWord at h1
  rw [wordOf, BitVec.toInt_ofInt_eq_self (by decide)] <;> norm_num <;> omega

/-- Every word's value fits (rule R4). -/
theorem fitsWord_toInt (w : Word) : FitsWord w.toInt := by
  have h1 := BitVec.two_mul_toInt_lt (x := w)
  have h2 := BitVec.le_two_mul_toInt (x := w)
  unfold FitsWord minWord maxWord
  norm_num at h1 h2
  omega

/-- `arith` answers a word, the low 64 bits, exactly when the result fits or the policy is `wrap` (rule R85). -/
theorem arith_ok_iff {policy : OverflowPolicy} {v : Int} {w : Word} :
    arith policy v = .ok w ↔ ArithAccepts policy v ∧ w = wordOf v := by
  unfold arith ArithAccepts
  split
  case isTrue h =>
    rw [Except.ok.injEq]
    exact ⟨fun e => ⟨.inl h, e.symm⟩, fun e => e.2.symm⟩
  case isFalse h =>
    cases policy
    · simp only [reduceCtorEq, or_false, false_iff]
      exact fun h' => h h'.1
    · simp [eq_comm]

/-- `arith` raises only `ArithmeticOverflow`, under policy `fault` and for a result that does not fit (rule R136). -/
theorem arith_error_iff {policy : OverflowPolicy} {v : Int} {r : Fault} :
    arith policy v = .error r ↔ r = .arithmeticOverflow ∧ policy = .fault ∧ ¬ FitsWord v := by
  unfold arith
  split
  case isTrue h =>
    simp only [reduceCtorEq, false_iff]
    exact fun h' => h'.2.2 h
  case isFalse h =>
    cases policy
    · rw [Except.error.injEq]
      exact ⟨fun e => ⟨e.symm, rfl, h⟩, fun e => e.1.symm⟩
    · simp

end Sys2Proof.Machine
end

