-- ==== Sys2Proof/Laws/PerInstr.lean ====
section
/-! SUPPORT. Statements about every instruction as syntax, one lemma per constructor. -/

namespace Sys2Proof.Laws.EncodedSize

/-- The encoding of an instruction has the instruction's size in words (rule R50). -/
def Statement (i : Instr) : Prop := (encode i).length = i.size

theorem add (a b dst : Param) : Statement (.add a b dst) := rfl
theorem mul (a b dst : Param) : Statement (.mul a b dst) := rfl
theorem inp (dst : Param) : Statement (.inp dst) := rfl
theorem out (src : Param) : Statement (.out src) := rfl
theorem jt (cond target : Param) : Statement (.jt cond target) := rfl
theorem jf (cond target : Param) : Statement (.jf cond target) := rfl
theorem lt (a b dst : Param) : Statement (.lt a b dst) := rfl
theorem eq (a b dst : Param) : Statement (.eq a b dst) := rfl
theorem arb (delta : Param) : Statement (.arb delta) := rfl
theorem halt : Statement .halt := rfl

end Sys2Proof.Laws.EncodedSize
end

