-- ==== Sys2Proof/Laws/Step.lean ====
section
/-! SUPPORT. Everything a meaning, the decoder and the step can do, said once: which next state, under which answers of
the operand resolution. -/

namespace Sys2Proof.Machine

/-- A chain of checks succeeds exactly when each of them does. -/
theorem except_bind_ok_iff {ε α β : Type} {x : Except ε α} {f : α → Except ε β} {b : β} :
    x >>= f = .ok b ↔ ∃ a, x = .ok a ∧ f a = .ok b := by
  cases x <;> simp [bind, Except.bind]

/-- A chain of checks fails with the first failure. -/
theorem except_bind_error_iff {ε α β : Type} {x : Except ε α} {f : α → Except ε β} {e : ε} :
    x >>= f = .error e ↔ x = .error e ∨ ∃ a, x = .ok a ∧ f a = .error e := by
  cases x <;> simp [bind, Except.bind]

/-- The end of a step (rule R110): the completed state with status `Running`, or the fault taken on the state before. -/
theorem State.finish_next_iff {s t : State} {r : Except Fault State} :
    s.finish r = .next t ↔ (∃ u, r = .ok u ∧ t = u.latch .running) ∨ ∃ e, r = .error e ∧ t = s.takeFault e := by
  cases r <;> simp [State.finish, eq_comm]

/-- Everything an instruction of format `F3` can do (rule R80). -/
theorem execF3_next {f : Word → Word → Except Fault Word} {p1 p2 p3 : Param} {s t : State}
    (h : execF3 f p1 p2 p3 s = .next t) :
    (∃ a b v d, ReadsAs s p1 a ∧ ReadsAs s p2 b ∧ f a b = .ok v ∧ NamesCell s p3 d ∧
      t = ((s.writeMem d v).advance 4).latch .running) ∨
    ∃ r, t = s.takeFault r ∧
      ((r = .invalidAddress ∧ (OutOfRange s p1 ∨ OutOfRange s p2 ∨ OutOfRange s p3)) ∨
        (∃ a b v, r = .immediateWriteTarget ∧ p3.mode = .immediate ∧ ReadsAs s p1 a ∧ ReadsAs s p2 b ∧ f a b = .ok v) ∨
        ∃ a b, ReadsAs s p1 a ∧ ReadsAs s p2 b ∧ f a b = .error r) := by
  rcases State.finish_next_iff.mp h with ⟨u, hu, rfl⟩ | ⟨r, hr, rfl⟩
  · simp only [except_bind_ok_iff] at hu
    obtain ⟨a, ha, b, hb, v, hv, d, hd, hu⟩ := hu
    injection hu with hu
    exact .inl ⟨a, b, v, d, State.resolveRead_ok_iff.mp ha, State.resolveRead_ok_iff.mp hb, hv,
      State.resolveWriteAddress_ok_iff.mp hd, by rw [← hu]⟩
  · refine .inr ⟨r, rfl, ?_⟩
    simp only [except_bind_error_iff] at hr
    rcases hr with h1 | ⟨a, ha, h2 | ⟨b, hb, h3 | ⟨v, hv, h4 | ⟨d, _, h5⟩⟩⟩⟩
    · obtain ⟨rfl, ho⟩ := State.resolveRead_error_iff.mp h1
      exact .inl ⟨rfl, .inl ho⟩
    · obtain ⟨rfl, ho⟩ := State.resolveRead_error_iff.mp h2
      exact .inl ⟨rfl, .inr (.inl ho)⟩
    · exact .inr (.inr ⟨a, b, State.resolveRead_ok_iff.mp ha, State.resolveRead_ok_iff.mp hb, h3⟩)
    · rcases State.resolveWriteAddress_error_iff.mp h4 with ⟨rfl, hm⟩ | ⟨rfl, ho⟩
      · exact .inr (.inl ⟨a, b, v, rfl, hm, State.resolveRead_ok_iff.mp ha, State.resolveRead_ok_iff.mp hb, hv⟩)
      · exact .inl ⟨rfl, .inr (.inr ho)⟩
    · cases h5

/-- What an instruction of format `F3` does when every check passes (rule R80). -/
theorem execF3_completes {f : Word → Word → Except Fault Word} {p1 p2 p3 : Param} {s : State} {a b v : Word} {d : Nat}
    (h1 : ReadsAs s p1 a) (h2 : ReadsAs s p2 b) (hf : f a b = .ok v) (hd : NamesCell s p3 d) :
    execF3 f p1 p2 p3 s = .next (((s.writeMem d v).advance 4).latch .running) :=
  State.finish_next_iff.mpr <| .inl ⟨_, by
    simp only [except_bind_ok_iff]
    exact ⟨a, State.resolveRead_ok_iff.mpr h1, b, State.resolveRead_ok_iff.mpr h2, v, hf, d,
      State.resolveWriteAddress_ok_iff.mpr hd, rfl⟩, rfl⟩

/-- What an instruction of format `F3` does when it comes as far as an Immediate destination (rules R80, R135). -/
theorem execF3_immediate_target {f : Word → Word → Except Fault Word} {p1 p2 p3 : Param} {s : State} {a b v : Word}
    (h1 : ReadsAs s p1 a) (h2 : ReadsAs s p2 b) (hf : f a b = .ok v) (hm : p3.mode = .immediate) :
    execF3 f p1 p2 p3 s = .next (s.takeFault .immediateWriteTarget) :=
  State.finish_next_iff.mpr <| .inr ⟨_, by
    simp only [except_bind_error_iff]
    exact .inr ⟨a, State.resolveRead_ok_iff.mpr h1, .inr ⟨b, State.resolveRead_ok_iff.mpr h2, .inr ⟨v, hf,
      .inl (State.resolveWriteAddress_error_iff.mpr (.inl ⟨rfl, hm⟩))⟩⟩⟩, rfl⟩

/-- Everything IN can do (rule R90). -/
theorem execIn_next {dst : Param} {s t : State} (h : execIn dst s = .next t) :
    (s.nextInput = none ∧ t = s.latch .waitingForInput) ∨
    ∃ v, s.nextInput = some v ∧
      ((∃ d, NamesCell s dst d ∧ t = ((s.consumeInput.writeMem d v).advance 2).latch .running) ∨
        ∃ r, t = s.takeFault r ∧
          ((r = .immediateWriteTarget ∧ dst.mode = .immediate) ∨ (r = .invalidAddress ∧ OutOfRange s dst))) := by
  unfold execIn at h
  split at h
  case h_1 hn =>
    injection h with h
    exact .inl ⟨hn, h.symm⟩
  case h_2 v hn =>
    refine .inr ⟨v, hn, ?_⟩
    rcases State.finish_next_iff.mp h with ⟨u, hu, rfl⟩ | ⟨r, hr, rfl⟩
    · simp only [except_bind_ok_iff] at hu
      obtain ⟨d, hd, hu⟩ := hu
      injection hu with hu
      exact .inl ⟨d, State.resolveWriteAddress_ok_iff.mp hd, by rw [← hu]⟩
    · simp only [except_bind_error_iff] at hr
      rcases hr with h1 | ⟨d, _, h2⟩
      · exact .inr ⟨r, rfl, State.resolveWriteAddress_error_iff.mp h1⟩
      · cases h2

/-- Everything OUT can do (rule R91). -/
theorem execOut_next {src : Param} {s t : State} (h : execOut src s = .next t) :
    (∃ v, ReadsAs s src v ∧ t = ((s.appendOut v).advance 2).latch .running) ∨
    (OutOfRange s src ∧ t = s.takeFault .invalidAddress) := by
  rcases State.finish_next_iff.mp h with ⟨u, hu, rfl⟩ | ⟨r, hr, rfl⟩
  · simp only [except_bind_ok_iff] at hu
    obtain ⟨v, hv, hu⟩ := hu
    injection hu with hu
    exact .inl ⟨v, State.resolveRead_ok_iff.mp hv, by rw [← hu]⟩
  · simp only [except_bind_error_iff] at hr
    rcases hr with h1 | ⟨d, _, h2⟩
    · obtain ⟨rfl, ho⟩ := State.resolveRead_error_iff.mp h1
      exact .inr ⟨ho, rfl⟩
    · cases h2

/-- Everything a jump can do (rules R95, R96). -/
theorem execJump_next {taken : Word → Bool} {p1 p2 : Param} {s t : State} (h : execJump taken p1 p2 s = .next t) :
    (∃ c a, ReadsAs s p1 c ∧ ReadsAs s p2 a ∧
      t = (if taken c then s.jumpTo a else s.advance 3).latch .running) ∨
    ((OutOfRange s p1 ∨ OutOfRange s p2) ∧ t = s.takeFault .invalidAddress) := by
  rcases State.finish_next_iff.mp h with ⟨u, hu, rfl⟩ | ⟨r, hr, rfl⟩
  · simp only [except_bind_ok_iff] at hu
    obtain ⟨c, hc, a, ha, hu⟩ := hu
    injection hu with hu
    exact .inl ⟨c, a, State.resolveRead_ok_iff.mp hc, State.resolveRead_ok_iff.mp ha, by rw [← hu]⟩
  · simp only [except_bind_error_iff] at hr
    rcases hr with h1 | ⟨c, _, h2 | ⟨a, _, h3⟩⟩
    · obtain ⟨rfl, ho⟩ := State.resolveRead_error_iff.mp h1
      exact .inr ⟨.inl ho, rfl⟩
    · obtain ⟨rfl, ho⟩ := State.resolveRead_error_iff.mp h2
      exact .inr ⟨.inr ho, rfl⟩
    · cases h3

/-- Everything ARB can do (rule R100). -/
theorem execArb_next {delta : Param} {s t : State} (h : execArb delta s = .next t) :
    (∃ v, ReadsAs s delta v ∧ ArithAccepts s.cfg.arithOverflow (s.rb.toInt + v.toInt) ∧
      t = ((s.setRb (wordOf (s.rb.toInt + v.toInt))).advance 2).latch .running) ∨
    (OutOfRange s delta ∧ t = s.takeFault .invalidAddress) ∨
    ∃ v, ReadsAs s delta v ∧ s.cfg.arithOverflow = .fault ∧ ¬ FitsWord (s.rb.toInt + v.toInt) ∧
      t = s.takeFault .arithmeticOverflow := by
  rcases State.finish_next_iff.mp h with ⟨u, hu, rfl⟩ | ⟨r, hr, rfl⟩
  · simp only [except_bind_ok_iff] at hu
    obtain ⟨v, hv, w, hw, hu⟩ := hu
    injection hu with hu
    obtain ⟨hacc, rfl⟩ := arith_ok_iff.mp hw
    exact .inl ⟨v, State.resolveRead_ok_iff.mp hv, hacc, by rw [← hu]⟩
  · simp only [except_bind_error_iff] at hr
    rcases hr with h1 | ⟨v, hv, h2 | ⟨w, _, h3⟩⟩
    · obtain ⟨rfl, ho⟩ := State.resolveRead_error_iff.mp h1
      exact .inr (.inl ⟨ho, rfl⟩)
    · obtain ⟨rfl, hp, hf⟩ := arith_error_iff.mp h2
      exact .inr (.inr ⟨v, State.resolveRead_ok_iff.mp hv, hp, hf, rfl⟩)
    · cases h3

/-- HALT always completes (rule R103). -/
theorem execHalt_next {s t : State} (h : execHalt s = .next t) :
    t = (s.advance 1).latch (.halted (s.mem.word 0)) := by
  injection h with h
  exact h.symm

theorem State.finish_answers_next (s : State) (r : Except Fault State) : ∃ t, s.finish r = .next t := by
  cases r <;> exact ⟨_, rfl⟩

theorem execIn_answers_next (dst : Param) (s : State) : ∃ t, execIn dst s = .next t := by
  unfold execIn
  split
  · exact ⟨_, rfl⟩
  · exact s.finish_answers_next _

/-- Every instruction answers a next state: no meaning stops (rule R110: four outcomes and no fifth, all of them a value
of `STATUS`). -/
theorem exec_answers_next (i : Instr) (s : State) : ∃ t, exec i s = .next t := by
  cases i
  case inp dst => exact execIn_answers_next dst s
  case halt => exact ⟨_, rfl⟩
  all_goals exact s.finish_answers_next _

/-- Everything a step can do: nothing in a terminal state, a decoder fault taken, or the decoded instruction executed. -/
theorem step_next_iff {s t : State} :
    step s = .next t ↔
      (s.terminal = true ∧ t = s) ∨
      (s.terminal = false ∧ ∃ r, s.decode = .error r ∧ t = s.takeFault r) ∨
      (s.terminal = false ∧ ∃ i, s.decode = .ok i ∧ exec i s = .next t) := by
  unfold step
  cases s.terminal <;> cases s.decode <;> simp [eq_comm]

theorem step_answers_next (s : State) : ∃ t, step s = .next t := by
  unfold step
  split
  · exact ⟨_, rfl⟩
  · split
    · exact ⟨_, rfl⟩
    · exact exec_answers_next _ s

/-- The state after a step is the one the step answers. -/
theorem State.step_eq_stepped (s : State) : step s = .next s.stepped := by
  obtain ⟨t, ht⟩ := step_answers_next s
  rw [ht, State.stepped, ht]

theorem State.stepped_eq {s t : State} (h : step s = .next t) : s.stepped = t := by
  rw [State.stepped, h]

/-- The decoder's fault is one of its three (rules R131, R133, R134). -/
theorem State.decode_error {s : State} {r : Fault} (h : s.decode = .error r) :
    r = .memoryOverflow ∨ r = .unknownOpcode ∨ r = .unknownParameterMode := by
  unfold State.decode at h
  split at h
  · cases h
  · rename_i e _
    injection h with h
    subst h
    cases e <;> simp [faultOfDecode]

/-- A source operand has one value (rule R33). -/
theorem ReadsAs.unique {s : State} {p : Param} {v w : Word} (hv : ReadsAs s p v) (hw : ReadsAs s p w) : v = w := by
  have h := (State.resolveRead_ok_iff.mpr hv).symm.trans (State.resolveRead_ok_iff.mpr hw)
  injection h

/-- Decoding reads only `IP`, `M` and the policies (rule R61). -/
theorem State.decode_congr {s t : State} (hm : t.mem = s.mem) (hi : t.ip = s.ip) (hc : t.cfg = s.cfg) :
    t.decode = s.decode := by
  unfold State.decode State.fetchWords
  rw [hm, hi, hc]

/-- Everything an instruction can do, in one list (rules R80, R90, R91, R95, R96, R100, R103, R137). -/
theorem exec_next_cases {i : Instr} {s t : State} (h : exec i s = .next t) :
    (∃ p1 p2 p3 a b v d, (i = .add p1 p2 p3 ∨ i = .mul p1 p2 p3 ∨ i = .lt p1 p2 p3 ∨ i = .eq p1 p2 p3) ∧
      ReadsAs s p1 a ∧ ReadsAs s p2 b ∧ NamesCell s p3 d ∧ t = ((s.writeMem d v).advance 4).latch .running) ∨
    (∃ p v d, i = .inp p ∧ s.nextInput = some v ∧ NamesCell s p d ∧
      t = ((s.consumeInput.writeMem d v).advance 2).latch .running) ∨
    (∃ p v, i = .out p ∧ ReadsAs s p v ∧ t = ((s.appendOut v).advance 2).latch .running) ∨
    (∃ p q c a, (i = .jt p q ∨ i = .jf p q) ∧ ReadsAs s p c ∧ ReadsAs s q a ∧
      ((TakesJump s i q ∧ t = (s.jumpTo a).latch .running) ∨
        ((∀ q, ¬ TakesJump s i q) ∧ t = (s.advance 3).latch .running))) ∨
    (∃ p v, i = .arb p ∧ ReadsAs s p v ∧
      t = ((s.setRb (wordOf (s.rb.toInt + v.toInt))).advance 2).latch .running) ∨
    (i = .halt ∧ t = (s.advance 1).latch (.halted (s.mem.word 0))) ∨
    (∃ p, i = .inp p ∧ s.nextInput = none ∧ t = s.latch .waitingForInput) ∨
    ∃ r, t = s.takeFault r ∧
      (r = .invalidAddress ∨ (r = .immediateWriteTarget ∧ i.wellFormed = false ∧ ReachesWriteTarget s i) ∨
        (r = .arithmeticOverflow ∧ s.cfg.arithOverflow = .fault ∧
          (i.opcode = .add ∨ i.opcode = .mul ∨ i.opcode = .arb))) := by
  cases i with
  | add p1 p2 p3 | mul p1 p2 p3 | lt p1 p2 p3 | eq p1 p2 p3 =>
    rcases execF3_next h with ⟨a, b, v, d, h1, h2, _, h4, ht⟩ | ⟨r, ht, hr⟩
    · exact .inl ⟨p1, p2, p3, a, b, v, d, by simp, h1, h2, h4, ht⟩
    · iterate 7 right
      refine ⟨r, ht, ?_⟩
      rcases hr with ⟨rfl, _⟩ | ⟨x, y, v, rfl, hm, hx, hy, hf⟩ | ⟨x, y, _, _, hf⟩
      · exact .inl rfl
      · refine .inr (.inl ⟨rfl, by simp [Instr.wellFormed, Instr.writeTarget, hm], ?_⟩)
        first
        | exact ⟨x, y, hx, hy, (arith_ok_iff.mp hf).1⟩
        | exact ⟨x, y, hx, hy⟩
      · first
        | (obtain ⟨rfl, hp, _⟩ := arith_error_iff.mp hf; exact .inr (.inr ⟨rfl, hp, by simp [Instr.opcode]⟩))
        | cases hf
  | inp p =>
    rcases execIn_next h with ⟨hn, ht⟩ | ⟨v, hn, ⟨d, hd, ht⟩ | ⟨r, ht, hr⟩⟩
    · iterate 6 right
      exact .inl ⟨p, rfl, hn, ht⟩
    · exact .inr (.inl ⟨p, v, d, rfl, hn, hd, ht⟩)
    · iterate 7 right
      refine ⟨r, ht, ?_⟩
      rcases hr with ⟨rfl, hm⟩ | ⟨rfl, _⟩
      · exact .inr (.inl ⟨rfl, by simp [Instr.wellFormed, Instr.writeTarget, hm], (List.getElem?_eq_some_iff.mp hn).1⟩)
      · exact .inl rfl
  | out p =>
    rcases execOut_next h with ⟨v, hv, ht⟩ | ⟨_, ht⟩
    · exact .inr (.inr (.inl ⟨p, v, rfl, hv, ht⟩))
    · iterate 7 right
      exact ⟨_, ht, .inl rfl⟩
  | jt p q | jf p q =>
    rcases execJump_next h with ⟨c, a, hc, ha, ht⟩ | ⟨_, ht⟩
    · refine .inr (.inr (.inr (.inl ⟨p, q, c, a, by simp, hc, ha, ?_⟩)))
      split at ht
      case isTrue h0 => exact .inl ⟨⟨p, c, hc, by simpa using h0⟩, ht⟩
      case isFalse h0 =>
        refine .inr ⟨fun q' ⟨p', c', hc', hi⟩ => h0 ?_, ht⟩
        rcases hi with ⟨hi, h1⟩ | ⟨hi, h1⟩ <;> cases hi
        simpa [ReadsAs.unique hc hc'] using h1
    · iterate 7 right
      exact ⟨_, ht, .inl rfl⟩
  | arb p =>
    rcases execArb_next h with ⟨v, hv, _, ht⟩ | ⟨_, ht⟩ | ⟨_, _, hp, _, ht⟩
    · iterate 4 right
      exact .inl ⟨p, v, rfl, hv, ht⟩
    · iterate 7 right
      exact ⟨_, ht, .inl rfl⟩
    · iterate 7 right
      exact ⟨_, ht, .inr (.inr ⟨rfl, hp, by simp [Instr.opcode]⟩)⟩
  | halt =>
    iterate 5 right
    exact .inl ⟨rfl, execHalt_next h⟩

/-- `IP` is outside memory or the address of a word (rule R61 step 1). -/
theorem State.ip_cases (s : State) :
    (s.ip.toInt < 0 ∨ (s.mem.len : Int) ≤ s.ip.toInt) ∨ ∃ n : Nat, s.ip.toInt = n ∧ n < s.mem.len := by
  by_cases h : s.ip.toInt < 0 ∨ (s.mem.len : Int) ≤ s.ip.toInt
  · exact .inl h
  · exact .inr ⟨s.ip.toInt.toNat, by omega, by omega⟩

/-- Inside memory the fetch starts with the opcode word at `IP`. -/
theorem State.fetchWords_of_valid {s : State} {n : Nat} (h : s.ip.toInt = n) (hn : n < s.mem.len) :
    s.fetchWords = s.mem.word n :: s.mem.wordsFrom (n + 1) 3 := by
  unfold State.fetchWords
  rw [h, if_neg (by omega), Int.toNat_natCast, Memory.wordsFrom, if_pos hn]

/-- Outside memory there is nothing to fetch. -/
theorem State.fetchWords_of_invalid {s : State} (h : s.ip.toInt < 0 ∨ (s.mem.len : Int) ≤ s.ip.toInt) :
    s.fetchWords = [] := by
  unfold State.fetchWords
  split
  · rfl
  · rw [Memory.wordsFrom, if_neg (by omega)]

theorem State.decode_ok_iff {s : State} {i : Instr} :
    s.decode = .ok i ↔ ∃ rest, decodeWords s.cfg s.fetchWords = .ok (i, rest) := by
  unfold State.decode
  split <;> rename_i hd <;> simp [hd]

theorem State.decode_error_iff {s : State} {r : Fault} :
    s.decode = .error r ↔ ∃ e, decodeWords s.cfg s.fetchWords = .error e ∧ r = faultOfDecode e := by
  unfold State.decode
  split <;> rename_i hd <;> simp [hd, eq_comm]

end Sys2Proof.Machine

namespace Sys2Proof.Laws

open Sys2Proof.Machine

/-- `State.reset` is `new` of the empty program with the defaults of rule R4. -/
theorem reset_eq_new : State.new .default [] defaultMinCapacity = some State.reset := by decide

end Sys2Proof.Laws
end

