-- ==== Sys2Proof/Tests/Slice0.lean ====
section
/-! SUPPORT. The model's own tests. Expected results come from the spec: the worked examples and derived vectors of
spec/95_test_vectors.md and the examples in the rules named. The witnesses at the end show, for every statement that has
hypotheses, a concrete state and operands that meet them all. -/

namespace Sys2Proof.Tests

open Sys2Proof Sys2Proof.Machine

/-- A fresh instance with the tightest memory, as spec/95_test_vectors.md uses it, and some input pushed. -/
def boot (program : List Word) (inputs : List Word := []) : State :=
  { State.reset with mem := ⟨program.length, loadCells 0 program⟩, inq := inputs }

/-- The same with `ARITH_OVERFLOW_POLICY = wrap`, `HIGH_DIGITS_POLICY = ignore`, `UNUSED_MODE_CHECK = used_only`. -/
def bootLax (program : List Word) : State :=
  { boot program with cfg := { arithOverflow := .wrap, highDigits := .ignore, unusedModes := .usedOnly } }

/-- Position, Immediate and Relative parameters of rule R65's notation: `[n]`, `#n`, `[rb+n]`. -/
def at' (n : Word) : Param := ⟨n, .position⟩
def imm (n : Word) : Param := ⟨n, .immediate⟩
def rel (n : Word) : Param := ⟨n, .relative⟩

/-! ### Well-formedness: an ill-formed term the check refuses (rule R20(c)) -/

theorem test_wellFormed_refuses_immediate_f3 : (Instr.add (at' 1) (at' 2) (imm 3)).wellFormed = false := by decide
theorem test_wellFormed_refuses_immediate_in : (Instr.inp (imm 3)).wellFormed = false := by decide
theorem test_wellFormed_accepts_relative : (Instr.lt (imm 1) (imm 2) (rel 3)).wellFormed = true := by decide

/-! ### Decoding: words written digit by digit from rules R51, R52, R54 -/

theorem test_decode_add : decodeWords .default [21101, 5, 6, 7] = .ok (.add (imm 5) (imm 6) (rel 7), []) := by decide
theorem test_decode_mul : decodeWords .default [1002, 4, 3, 4] = .ok (.mul (at' 4) (imm 3) (at' 4), []) := by decide
theorem test_decode_in : decodeWords .default [203, 1] = .ok (.inp (rel 1), []) := by decide
theorem test_decode_out : decodeWords .default [104, -9] = .ok (.out (imm (-9)), []) := by decide
theorem test_decode_jt : decodeWords .default [1005, 10, 0] = .ok (.jt (at' 10) (imm 0), []) := by decide
theorem test_decode_jf : decodeWords .default [2106, 3, 4] = .ok (.jf (imm 3) (rel 4), []) := by decide
theorem test_decode_lt : decodeWords .default [7, 5, 6, 5] = .ok (.lt (at' 5) (at' 6) (at' 5), []) := by decide
theorem test_decode_eq : decodeWords .default [21008, 5, 6, 5] = .ok (.eq (at' 5) (imm 6) (rel 5), []) := by decide
theorem test_decode_arb : decodeWords .default [209, 0] = .ok (.arb (rel 0), []) := by decide
theorem test_decode_halt : decodeWords .default [99, 7] = .ok (.halt, [7]) := by decide

/-- Unused legal mode digits (rule R60): `22299` is HALT and `10003` is IN in Position mode. -/
theorem test_decode_unused_digits :
    decodeWords .default [22299] = .ok (.halt, []) ∧ decodeWords .default [10003, 4] = .ok (.inp (at' 4), []) := by decide

/-- The rejections of spec/95_test_vectors.md part 2.1 under the default policies. -/
theorem test_decode_rejects :
    [0, 100, 20000, 10, 77, 98, 12345, 377, -1, -99, -101, -1002].map (fun w => decodeWords .default [w, 0, 0, 0]) =
      List.replicate 12 (.error .unknownOpcode) ∧
    [301, 3002, 30001, 90001, 99999, 399, 3099, 40099, 30004, 100001, 100099, 9223372036854775807].map
        (fun w => decodeWords .default [w, 0, 0, 0]) = List.replicate 12 (.error .unknownParameterMode) ∧
    decodeWords .default [1, 0, 0] = .error .memoryOverflow ∧ decodeWords .default [] = .error .memoryOverflow := by
  decide

/-- The other policies (rules R59, R60): `399`, `30004`, `100001` decode as HALT, OUT, ADD. -/
theorem test_decode_policies :
    decodeWords ⟨.fault, .fault, .usedOnly⟩ [399] = .ok (.halt, []) ∧
    decodeWords ⟨.fault, .fault, .usedOnly⟩ [30004, 1] = .ok (.out (at' 1), []) ∧
    decodeWords ⟨.fault, .ignore, .allThree⟩ [100001, 1, 2, 3] = .ok (.add (at' 1) (at' 2) (at' 3), []) := by decide

/-- The table's words as the host numbers them, and the fetch of one as the first step after reset. -/
theorem test_table_word : decodeTableWord 8 4 = some (.out (at' 0)) ∧ decodeTableWord 256 (1002 + 3 * 2 ^ 128) =
    some (.mul (at' 0) (imm 3) (at' 0)) ∧ decodeTableWord 8 10 = none := by decide

theorem test_fetch_word_after_reset :
    (State.reset.withFetchWord 8 99).stepped.status = .halted 99 ∧
    (State.reset.withFetchWord 8 1).stepped.mem.word 0 = 2 := by decide

/-! ### One step each, expected results from spec/95_test_vectors.md and the rules' examples -/

/-- S1 step 1, and the ADD that overwrites its own opcode word (rule R43). -/
theorem test_add_s1 : (boot [1, 9, 10, 3, 2, 3, 11, 0, 99, 30, 40, 50]).stepped.mem.word 3 = 70 := by decide
theorem test_add_overflow :
    (boot [1101, 9223372036854775807, 1, 0, 99]).stepped.status = .faulted .arithmeticOverflow ∧
    (bootLax [1101, 9223372036854775807, 1, 0, 99]).stepped.mem.word 0 = -9223372036854775808 := by decide

theorem test_mul_negative : (boot [1102, -7, 6, 0, 99]).stepped.mem.word 0 = -42 := by decide
theorem test_mul_largest_square :
    (boot [1102, 3037000499, 3037000499, 0, 99]).stepped.mem.word 0 = 9223372030926249001 := by decide

theorem test_lt_signed : (boot [1107, -1, 0, 0, 99]).stepped.mem.word 0 = 1 ∧
    (boot [1107, 0, -1, 0, 99]).stepped.mem.word 0 = 0 := by decide
theorem test_eq_sign : (boot [1108, 5, -5, 0, 99]).stepped.mem.word 0 = 0 ∧
    (boot [8, 7, 7, 7, 99, 0, 0, 123]).stepped.mem.word 7 = 1 := by decide

theorem test_in_consumes : (boot [3, 0, 4, 0, 99] [1337]).stepped =
    { boot [1337, 0, 4, 0, 99] [1337] with cur := 1, ip := 2 } := by decide
theorem test_in_empty_before_target : (boot [103, 0, 99]).stepped.status = .waitingForInput ∧
    (boot [103, 0, 99] [5]).stepped = { boot [103, 0, 99] [5] with status := .faulted .immediateWriteTarget } := by decide

theorem test_out_immediate : (boot [104, 1125899906842624, 99]).stepped.out = [1125899906842624] := by decide
theorem test_out_range : (boot [4, 100, 99]).stepped = { boot [4, 100, 99] with status := .faulted .invalidAddress } := by
  decide

theorem test_jt_negative_is_true : (boot [1105, -3, 4, 0, 99]).stepped.ip = 4 := by decide
theorem test_jt_target_read_first : (boot [5, 3, 100, 0, 99]).stepped.status = .faulted .invalidAddress := by decide

theorem test_jf_position_target : (boot [6, 3, 4, 0, 7, 0, 0, 99]).stepped.ip = 7 := by decide
theorem test_jf_not_taken : (boot [1106, 1, 7]).stepped.ip = 3 := by decide

theorem test_arb_adds : ({ boot [109, -5] with rb := 3 }).stepped.rb = -2 := by decide
theorem test_arb_old_rb : ({ boot [209, 0, 99, 7] with rb := 3 }).stepped.rb = 10 := by decide

theorem test_halt : (boot [22299]).stepped = { boot [22299] with ip := 1, status := .halted 22299 } := by decide

/-- The exact sum never wraps (rule R35): `RB = -2^63`, value -2^63 is out of range, not address 0. -/
theorem test_relative_sum_is_exact :
    ({ boot [204, -9223372036854775808, 99] with rb := -9223372036854775808 }).stepped.status =
      .faulted .invalidAddress := by decide

/-- `IP` at and below the ends of memory, and parameter words past the end (spec/95_test_vectors.md part 2.1). -/
theorem test_fetch_bounds :
    ({ boot [0, 0, 0, 0, 99] with ip := 5 }).stepped.status = .faulted .memoryOverflow ∧
    ({ boot [0, 0, 0, 0, 99] with ip := -1 }).stepped.status = .faulted .memoryOverflow ∧
    ({ boot [0, 0, 1, 0, 0] with ip := 2 }).stepped.status = .faulted .memoryOverflow ∧
    ({ boot [0, 0, 0, 0, 377] with ip := 4 }).stepped.status = .faulted .unknownOpcode ∧
    (boot []).stepped.status = .faulted .memoryOverflow := by decide

/-- Part 2.7: a run of budget 0 performs no step; a drain empties the log; a terminal state stays. -/
theorem test_host_operations :
    (runBudget 0 (boot [1105, 1, 0])).1 = .continue ∧ (runBudget 3 (boot [104, 1, 99])).1 = .halt 104 ∧
    (boot [104, 1, 99]).stepped.drainOutput.1 = [1] ∧ (boot [99]).stepped.stepped.ip = 1 := by decide

/-- The start of the program text of vector S1 (rule R64), signs and blanks, the last value that fits and the first that
does not, and texts without a value. -/
theorem test_loader : parseProgram ['1', ',', '9', ',', ' ', '-', '1', '0', ',', '+', '3', '\n'] = some [1, 9, -10, 3] ∧
    parseProgram "9223372036854775807".toList = some [9223372036854775807] ∧
    parseProgram "9223372036854775808".toList = none ∧
    parseProgram ['-'] = none ∧ parseProgram ['1', ',', ',', '2'] = none ∧ parseProgram [] = none := by decide

theorem test_new_refuses : State.new .default [] 4611686018427387905 = none := by decide

/-! ### Witnesses of the statements' hypotheses -/

theorem witness_reads {s : State} {p : Param} {v : Word} (h : s.resolveRead p = .ok v) : ReadsAs s p v :=
  State.resolveRead_ok_iff.mp h

theorem witness_names {s : State} {p : Param} {n : Nat} (h : s.resolveWriteAddress p = .ok n) : NamesCell s p n :=
  State.resolveWriteAddress_ok_iff.mp h

theorem witness_outOfRange {s : State} {p : Param} (h : s.resolveRead p = .error .invalidAddress) : OutOfRange s p :=
  (State.resolveRead_error_iff.mp h).2

theorem witness_DecodedParametersAreTheWordsAtIp :
    (boot [1002, 4, 3, 4, 33]).decode = .ok (.mul (at' 4) (imm 3) (at' 4)) := by decide

/-- Opcodes 00, 10 and 98 at the boundaries outside the table, 9 and 99 inside it. -/
theorem witness_UnknownOpcodeExactlyOutsideTheTable :
    ∀ w ∈ ([100, 10, 98, 9, 99] : List Word), FetchesAt (boot [w, 0]) 0 ∧ 0 ≤ ((boot [w, 0]).mem.word 0).toInt := by
  simp only [List.forall_mem_cons, List.not_mem_nil, false_implies, implies_true, and_true, FetchesAt]
  decide

theorem witness_NegativeOpcodeWordFaults : FetchesAt (boot [-1]) 0 ∧ ((boot [-1]).mem.word 0).toInt < 0 := by
  unfold FetchesAt; decide

/-- A bad used digit, a bad unused digit, a high digit, and none of them. -/
theorem witness_UnknownParameterModeExactlyWhen :
    ∀ w ∈ ([301, 30001, 100001, 22201] : List Word),
      FetchesAt (boot [w, 0, 0, 0]) 0 ∧ 0 ≤ ((boot [w, 0, 0, 0]).mem.word 0).toInt ∧
      ((boot [w, 0, 0, 0]).mem.word 0).toInt % 100 = Opcode.add.code := by
  simp only [List.forall_mem_cons, List.not_mem_nil, false_implies, implies_true, and_true, FetchesAt]
  decide

theorem witness_MemoryOverflowExactlyWhen : (boot [0, 0, 0, 0, 3]).terminal = false ∧
    decodeHead .default 3 = .ok ⟨.inp, .position, .position, .position⟩ := by decide

theorem witness_UnusedModeDigitsAreIgnored :
    decodeWords .default [3, 4] = .ok (.inp (at' 4), []) ∧
    0 ≤ (20003 : Word).toInt ∧ (20003 : Word).toInt < 100000 ∧ (20003 : Word).toInt % 100 = (3 : Word).toInt % 100 ∧
    (∀ k, k < (Instr.inp (at' 4)).opcode.operandCount →
      digit (k + 2) (20003 : Word).toInt.toNat = digit (k + 2) (3 : Word).toInt.toNat) ∧
    (∀ k, k < 3 → digit (k + 2) (20003 : Word).toInt.toNat ≤ 2) := by
  refine ⟨by decide, by decide, by decide, by decide, ?_, by decide⟩
  show ∀ k, k < 1 → _
  decide

theorem witness_StepRunsTheDecodedInstruction :
    (boot [0, 104, 7]).terminal = false ∧ ({ boot [0, 104, 7] with ip := 1 }).ip.toInt = ((1 : Nat) : Int) ∧
    decodeWords .default [104, 7] = .ok (.out (imm 7), []) ∧
    ∀ (k : Nat) (w : Word), ([104, 7] : List Word)[k]? = some w →
      1 + k < (boot [0, 104, 7]).mem.len ∧ (boot [0, 104, 7]).mem.word (1 + k) = w := by
  refine ⟨by decide, by decide, by decide, fun k w h => ?_⟩
  rcases k with _ | _ | k
  · injection h with h; subst h; decide
  · injection h with h; subst h; decide
  · simp at h

/-- A memory to read and write: cells 0 to 5, `RB` 2, one input unread. -/
def cellsState : State := { boot [99, -3, 4, 9223372036854775807, 7, 0] [11] with rb := 2 }

theorem witness_AddWritesTheExactSum :
    ReadsAs cellsState (at' 1) (-3) ∧ ReadsAs cellsState (rel 0) 4 ∧ FitsWord ((-3 : Word).toInt + (4 : Word).toInt) ∧
    NamesCell cellsState (rel 3) 5 :=
  ⟨witness_reads (by decide), witness_reads (by decide), by decide, witness_names (by decide)⟩

theorem witness_MulWritesTheExactProduct :
    ReadsAs cellsState (at' 1) (-3) ∧ ReadsAs cellsState (rel 0) 4 ∧ FitsWord ((-3 : Word).toInt * (4 : Word).toInt) ∧
    NamesCell cellsState (at' 0) 0 :=
  ⟨witness_reads (by decide), witness_reads (by decide), by decide, witness_names (by decide)⟩

/-- Both clauses: the default policy is `fault`, and `wrap` is met by `bootLax`. -/
theorem witness_OverflowOfAddAndMulFollowsThePolicy :
    ReadsAs cellsState (at' 3) 9223372036854775807 ∧ ReadsAs cellsState (imm 1) 1 ∧
    ¬ FitsWord ((9223372036854775807 : Word).toInt + (1 : Word).toInt) ∧ cellsState.cfg.arithOverflow = .fault ∧
    ReadsAs (bootLax [0]) (imm 9223372036854775807) 9223372036854775807 ∧ ReadsAs (bootLax [0]) (imm 2) 2 ∧
    ¬ FitsWord ((9223372036854775807 : Word).toInt * (2 : Word).toInt) ∧ (bootLax [0]).cfg.arithOverflow = .wrap ∧
    NamesCell (bootLax [0]) (at' 0) 0 :=
  ⟨witness_reads (by decide), witness_reads (by decide), by decide, by decide, witness_reads (by decide),
    witness_reads (by decide), by decide, by decide, witness_names (by decide)⟩

theorem witness_LessThanWritesOneOrZero :
    (ReadsAs cellsState (at' 1) (-3) ∧ ReadsAs cellsState (at' 2) 4 ∧ NamesCell cellsState (at' 5) 5) ∧
    exec (.lt (at' 6) (at' 2) (at' 5)) cellsState = .next { cellsState with status := .faulted .invalidAddress } :=
  ⟨⟨witness_reads (by decide), witness_reads (by decide), witness_names (by decide)⟩, rfl⟩

theorem witness_EqualsWritesOneOrZero :
    (ReadsAs cellsState (imm 4) 4 ∧ ReadsAs cellsState (at' 2) 4 ∧ NamesCell cellsState (at' 5) 5) ∧
    exec (.eq (imm 4) (at' 2) (imm 5)) cellsState = .next { cellsState with status := .faulted .immediateWriteTarget } :=
  ⟨⟨witness_reads (by decide), witness_reads (by decide), witness_names (by decide)⟩, rfl⟩

/-- Each clause, the addresses at the two ends just outside memory. -/
theorem witness_ThreeOperandFaultsComeInOrder :
    OutOfRange cellsState (at' 6) ∧ OutOfRange cellsState (at' (-1)) ∧ OutOfRange cellsState (rel 4) ∧
    OutOfRange cellsState (rel (-3)) ∧ ReadsAs cellsState (at' 5) 0 ∧ ReadsAs cellsState (rel (-2)) 99 ∧
    ArithAccepts cellsState.cfg.arithOverflow ((0 : Word).toInt + (99 : Word).toInt) ∧
    ArithAccepts cellsState.cfg.arithOverflow ((0 : Word).toInt * (99 : Word).toInt) ∧ (imm 5).mode = .immediate :=
  ⟨witness_outOfRange (by decide), witness_outOfRange (by decide), witness_outOfRange (by decide),
    witness_outOfRange (by decide), witness_reads (by decide), witness_reads (by decide), .inl (by decide),
    .inl (by decide), rfl⟩

theorem witness_InputConsumesTheNextValue :
    cellsState.inq[cellsState.cur]? = some 11 ∧ NamesCell cellsState (rel (-2)) 0 :=
  ⟨by decide, witness_names (by decide)⟩

/-- The cursor exactly at the end, with something consumed before. -/
theorem witness_InputSuspendsOnTheEmptyQueue :
    ({ cellsState with cur := 1 }).inq.length ≤ ({ cellsState with cur := 1 }).cur := by decide

theorem witness_InputTargetFaultKeepsTheValue :
    cellsState.cur < cellsState.inq.length ∧ (imm 0).mode = .immediate ∧ OutOfRange cellsState (at' 6) :=
  ⟨by decide, rfl, witness_outOfRange (by decide)⟩

theorem witness_OutputAppendsOneValue :
    ReadsAs cellsState (imm (-1)) (-1) ∧ ReadsAs cellsState (at' 5) 0 ∧ OutOfRange cellsState (at' 6) :=
  ⟨witness_reads (by decide), witness_reads (by decide), witness_outOfRange (by decide)⟩

/-- Conditions 0 and not 0, and the jump operands out of range: the hypotheses of the four statements on jumps. -/
theorem witness_Jumps :
    ReadsAs cellsState (at' 5) 0 ∧ ReadsAs cellsState (at' 1) (-3) ∧ ReadsAs cellsState (at' 4) 7 ∧
    OutOfRange cellsState (at' 6) ∧ OutOfRange cellsState (rel (-3)) :=
  ⟨witness_reads (by decide), witness_reads (by decide), witness_reads (by decide), witness_outOfRange (by decide),
    witness_outOfRange (by decide)⟩

/-- Both jumps, to -1 and to `MEM_LEN` itself. -/
theorem witness_JumpOutsideMemoryFaultsAtTheNextFetch :
    ((boot [1105, 1, -1]).terminal = false ∧ (boot [1105, 1, -1]).decode = .ok (.jt (imm 1) (imm (-1))) ∧
      ReadsAs (boot [1105, 1, -1]) (imm 1) 1 ∧ (1 : Word) ≠ 0 ∧ ReadsAs (boot [1105, 1, -1]) (imm (-1)) (-1) ∧
      (-1 : Word).toInt < 0) ∧
    ((boot [1106, 0, 3]).decode = .ok (.jf (imm 0) (imm 3)) ∧ ReadsAs (boot [1106, 0, 3]) (imm 0) 0 ∧
      ReadsAs (boot [1106, 0, 3]) (imm 3) 3 ∧ ((boot [1106, 0, 3]).mem.len : Int) ≤ (3 : Word).toInt) :=
  ⟨⟨by decide, by decide, witness_reads (by decide), by decide, witness_reads (by decide), by decide⟩,
    by decide, witness_reads (by decide), witness_reads (by decide), by decide⟩

theorem witness_AdjustRelativeBaseAddsToRb :
    ReadsAs cellsState (at' 1) (-3) ∧ FitsWord (cellsState.rb.toInt + (-3 : Word).toInt) :=
  ⟨witness_reads (by decide), by decide⟩

theorem witness_AdjustRelativeBaseFaultsOrWraps :
    OutOfRange cellsState (at' (-1)) ∧ ReadsAs cellsState (at' 3) 9223372036854775807 ∧
    ¬ FitsWord (cellsState.rb.toInt + (9223372036854775807 : Word).toInt) ∧ cellsState.cfg.arithOverflow = .fault ∧
    ReadsAs { bootLax [0] with rb := 2 } (imm 9223372036854775807) 9223372036854775807 ∧
    (bootLax [0]).cfg.arithOverflow = .wrap :=
  ⟨witness_outOfRange (by decide), witness_reads (by decide), by decide, by decide, witness_reads (by decide), by decide⟩

theorem witness_HaltReportsCellZero : (boot [99]).decode = .ok .halt := by decide

/-- The last address is written; 6 and -1 are read outside. -/
theorem witness_ReadAfterWrite : 5 < cellsState.mem.len ∧ (4 : Int) ≠ (5 : Nat) ∧ ((-1 : Int) < 0) ∧
    (cellsState.mem.len : Int) ≤ 6 := by decide

/-- A step that changes a cell, one that advances `RB`, and one that appends output. -/
theorem witness_OnlyTheNamedCellChanges :
    step (boot [1101, 1, 1, 0, 99]) = .next (boot [1101, 1, 1, 0, 99]).stepped ∧
    (boot [1101, 1, 1, 0, 99]).stepped.mem.word 0 ≠ (boot [1101, 1, 1, 0, 99]).mem.word 0 :=
  ⟨State.step_eq_stepped _, by decide⟩

theorem witness_OnlyArbChangesRb : step (boot [109, 1]) = .next (boot [109, 1]).stepped ∧
    (boot [109, 1]).stepped.rb ≠ (boot [109, 1]).rb :=
  ⟨State.step_eq_stepped _, by decide⟩

theorem witness_OutputLogOnlyGrowsByOut : step (boot [104, 5]) = .next (boot [104, 5]).stepped ∧
    (boot [104, 5]).stepped.out = (boot [104, 5]).out ++ [5] :=
  ⟨State.step_eq_stepped _, by decide⟩

/-- A non-terminal state for each of the four outcomes: running, waiting, halted, faulted. -/
theorem witness_StepMakesOneOfTheFourTransitions :
    ∀ p ∈ ([([3, 0], .running), ([3, 0], .waitingForInput), ([99], .halted 99), ([0], .faulted .unknownOpcode)] :
        List (List Word × Status)),
      (boot p.1 (if p.2 = .running then [3] else [])).terminal = false ∧
      (boot p.1 (if p.2 = .running then [3] else [])).stepped.status = p.2 := by decide

theorem witness_TerminalStatesAreFixed :
    (∃ v, (boot [99]).stepped.status = .halted v) ∧ ∃ r, (boot [0]).stepped.status = .faulted r :=
  ⟨⟨99, by decide⟩, .unknownOpcode, by decide⟩

theorem witness_FaultingStepChangesOnlyStatus :
    step (boot [1, -1, 0, 0, 99]) = .next (boot [1, -1, 0, 0, 99]).stepped ∧
    (boot [1, -1, 0, 0, 99]).stepped.status = .faulted .invalidAddress :=
  ⟨State.step_eq_stepped _, by decide⟩

theorem witness_SuspendedInputIsRetried :
    step (boot [3, 0]) = .next (boot [3, 0]).stepped ∧ (boot [3, 0]).stepped.status = .waitingForInput :=
  ⟨State.step_eq_stepped _, by decide⟩

theorem witness_OnlyHaltHalts : (boot [99]).terminal = false ∧ step (boot [99]) = .next (boot [99]).stepped ∧
    (boot [99]).stepped.status = .halted 99 :=
  ⟨by decide, State.step_eq_stepped _, by decide⟩

theorem witness_StepKeepsQueueLengthAndPolicies : step (boot [3, 0] [8]) = .next (boot [3, 0] [8]).stepped ∧
    (boot [3, 0] [8]).stepped.cur = (boot [3, 0] [8]).cur + 1 :=
  ⟨State.step_eq_stepped _, by decide⟩

/-- Each outcome: Running by the size, Running by a taken JT and a taken JF, Halted, WaitingForInput, Faulted. -/
theorem witness_IpAdvancesByTheSize :
    ∀ p ∈ ([([104, 5], .running, 2), ([1105, 1, 7], .running, 7), ([1106, 0, 7], .running, 7), ([99], .halted 99, 1),
          ([3, 0], .waitingForInput, 0), ([4, 100], .faulted .invalidAddress, 0)] : List (List Word × Status × Word)),
      (boot p.1).mem.len ≤ maxMemLen ∧ (boot p.1).terminal = false ∧ (boot p.1).decode.isOk = true ∧
      (boot p.1).stepped.status = p.2.1 ∧ (boot p.1).stepped.ip = p.2.2 := by decide

theorem witness_TakesJump :
    TakesJump (boot [1105, 1, 7]) (.jt (imm 1) (imm 7)) (imm 7) ∧ TakesJump (boot [1106, 0, 7]) (.jf (imm 0) (imm 7)) (imm 7) :=
  ⟨⟨imm 1, 1, witness_reads (by decide), .inl ⟨rfl, by decide⟩⟩, imm 0, 0, witness_reads (by decide), .inr ⟨rfl, rfl⟩⟩

/-- An ill-formed MUL and IN that reach their target and fault, an ill-formed IN that does not and waits, and a well-formed
IN that completes. -/
theorem witness_ImmediateWriteTargetExactlyWhenReached :
    ((Instr.mul (at' 1) (at' 2) (imm 5)).wellFormed = false ∧
      ReachesWriteTarget cellsState (.mul (at' 1) (at' 2) (imm 5)) ∧
      exec (.mul (at' 1) (at' 2) (imm 5)) cellsState = .next { cellsState with status := .faulted .immediateWriteTarget }) ∧
    ((Instr.inp (imm 0)).wellFormed = false ∧ ReachesWriteTarget cellsState (.inp (imm 0)) ∧
      exec (.inp (imm 0)) cellsState = .next { cellsState with status := .faulted .immediateWriteTarget }) ∧
    exec (.inp (imm 0)) { cellsState with cur := 1 } = .next { cellsState with cur := 1, status := .waitingForInput } ∧
    (Instr.inp (at' 0)).wellFormed = true ∧ exec (.inp (at' 0)) cellsState =
      .next (((cellsState.consumeInput.writeMem 0 11).advance 2).latch .running) :=
  ⟨⟨rfl, ⟨-3, 4, witness_reads (by decide), witness_reads (by decide), .inl (by decide)⟩, rfl⟩,
    ⟨rfl, by show cellsState.cur < cellsState.inq.length; decide, rfl⟩, rfl, rfl, rfl⟩

theorem witness_ArithmeticOverflowOnlyFromArithmetic :
    (boot [1101, 9223372036854775807, 1, 0]).terminal = false ∧
    step (boot [1101, 9223372036854775807, 1, 0]) = .next (boot [1101, 9223372036854775807, 1, 0]).stepped ∧
    (boot [1101, 9223372036854775807, 1, 0]).stepped.status = .faulted .arithmeticOverflow :=
  ⟨by decide, State.step_eq_stepped _, by decide⟩

theorem witness_OnlyRelativeModeReadsRb :
    (∀ p ∈ (Instr.out (at' 1)).params, p.mode ≠ .relative) ∧ (Instr.out (at' 1)).opcode ≠ .arb ∧
    exec (.out (at' 1)) cellsState = .next (((cellsState.appendOut (-3)).advance 2).latch .running) ∧
    (boot [99]).rb = 0 := by
  refine ⟨by decide, by decide, rfl, rfl⟩

theorem witness_StepKeepsTheInvariant : State.Inv cellsState ∧ step cellsState = .next cellsState.stepped :=
  ⟨⟨by decide, by decide, by decide, (by intro h; cases h), (by intro v h; cases h)⟩, State.step_eq_stepped _⟩

theorem witness_PlacedInstructionIsFetched : State.Inv cellsState :=
  witness_StepKeepsTheInvariant.1

theorem witness_EveryInstanceKeepsTheInvariant : State.new .default [3, 0, 99] 3 = some (boot [3, 0, 99]) := by decide

theorem witness_WaitingMeansAnInputAtIp :
    ((boot [3, 0]).status = .waitingForInput → (boot [3, 0]).AtInput) ∧
    (HostOp.step.apply (boot [3, 0])).status = .waitingForInput :=
  ⟨(by intro h; cases h), by decide⟩

theorem witness_PushCommutesWithAStep : step (boot [104, 5]) = .next (boot [104, 5]).stepped ∧
    (boot [104, 5]).stepped.status ≠ .waitingForInput :=
  ⟨State.step_eq_stepped _, by decide⟩

/-- The echo program of S3, fed only after it has suspended: it ends in `Halted(1337)`. -/
theorem witness_PreloadedInputGivesTheSameEnd :
    NoDrain [.step, .pushInput 1337, .step, .step, .step] ∧
    (runScript [.step, .pushInput 1337, .step, .step, .step] (boot [3, 0, 4, 0, 99])).terminal = true ∧
    (runScript [.step, .pushInput 1337, .step, .step, .step] (boot [3, 0, 4, 0, 99])).status = .halted 1337 := by
  unfold NoDrain; decide

/-- The two clauses at the bound: 2^62 words are accepted, one more is refused. -/
theorem witness_NewBuildsTheInstance :
    maxMemLen < max ([] : List Word).length 4611686018427387905 ∧
    max ([] : List Word).length 4611686018427387904 ≤ maxMemLen := by decide

/-- A JT and a JF to themselves. -/
theorem witness_SelfJumpRunsForEver :
    ((boot [1105, 1, 0]).terminal = false ∧ (boot [1105, 1, 0]).decode = .ok (.jt (imm 1) (imm 0)) ∧
      TakesJump (boot [1105, 1, 0]) (.jt (imm 1) (imm 0)) (imm 0) ∧
      ReadsAs (boot [1105, 1, 0]) (imm 0) (boot [1105, 1, 0]).ip) ∧
    (boot [1106, 0, 0]).terminal = false ∧ (boot [1106, 0, 0]).decode = .ok (.jf (imm 0) (imm 0)) ∧
      TakesJump (boot [1106, 0, 0]) (.jf (imm 0) (imm 0)) (imm 0) ∧
      ReadsAs (boot [1106, 0, 0]) (imm 0) (boot [1106, 0, 0]).ip :=
  ⟨⟨by decide, by decide, ⟨imm 1, 1, witness_reads (by decide), .inl ⟨rfl, by decide⟩⟩, witness_reads (by decide)⟩,
    by decide, by decide, ⟨imm 0, 0, witness_reads (by decide), .inr ⟨rfl, rfl⟩⟩, witness_reads (by decide)⟩

/-- One element with blanks and a sign, one of blanks alone, and one without a comma. -/
theorem witness_LoaderReadsProgramText :
    ((∀ c ∈ ([' '] ++ ['\n'] : List Char), c = ' ' ∨ c = '\t' ∨ c = '\n' ∨ c = '\r') ∧ ([4, 2] : List Nat) ≠ [] ∧
      (∀ d ∈ ([4, 2] : List Nat), d ≤ 9) ∧ parseElement [' ', '-', '4', '2', '\n'] = some (-42)) ∧
    (∀ c ∈ (['\t'] : List Char), c = ' ' ∨ c = '\t' ∨ c = '\n' ∨ c = '\r') ∧ ',' ∉ (['4', '2'] : List Char) :=
  ⟨⟨by simp, by decide, by decide, by decide⟩, by simp, by decide⟩

end Sys2Proof.Tests
end

section
/-! PROOFS. MemRead after MemWrite (spec/20_memory.md rule R32): the read of a written memory, at the written address and at
every other one, and the obligation assembled from these. -/

namespace Sys2Proof.Machine

@[simp] theorem Memory.read_of_lt {m : Memory} {n : Nat} (h : n < m.len) : m.read n = .ok (m.word n) :=
  Memory.read_ok_iff.mpr ⟨n, rfl, h, rfl⟩

theorem Memory.read_write_same {m : Memory} {d : Nat} (h : d < m.len) (v : Word) : (m.write d v).read d = .ok v := by
  rw [Memory.read_of_lt (by simpa using h), Memory.word_write_same]

/-- An address out of range is included: it faults before and after the write. -/
theorem Memory.read_write_other (m : Memory) {d : Nat} (v : Word) {addr : Int} (h : addr ≠ d) :
    (m.write d v).read addr = m.read addr := by
  cases hr : m.read addr with
  | ok w =>
    obtain ⟨n, rfl, hn, rfl⟩ := Memory.read_ok_iff.mp hr
    have hne : n ≠ d := by simpa using h
    rw [Memory.read_of_lt (by simpa using hn), Memory.word_write_other m v hne]
  | error r => exact Memory.read_error_iff.mpr (by simpa using Memory.read_error_iff.mp hr)

/-- Settles O28: the rules above for MemRead and MemWrite, and the length, which a write keeps. -/
theorem readAfterWrite : Obligations.ReadAfterWrite := by
  unfold Obligations.ReadAfterWrite
  refine ⟨fun m n hn => Memory.read_of_lt hn, fun m addr hout => ?_, fun m d v hd => ?_⟩
  · exact Memory.read_error_iff.mpr ⟨rfl, hout⟩
  · exact ⟨Memory.len_write m d v, Memory.read_write_same hd v, fun addr hne => Memory.read_write_other m v hne⟩

end Sys2Proof.Machine
end

section
/-! PROOFS. The decoder's facts that tie an instruction to its words (spec/30_encoding.md rule R55) and an unknown opcode to
its two low digits (rule R56), which step raises a fault of the decoder, and the two obligations assembled from these. -/

namespace Sys2Proof

/-- The mode digit of parameter `k`, counted from 0, is the decimal digit at position `k + 2` (rule R51). -/
theorem digit_of_modeDigits_getElem? {w k d : Nat} (h : (modeDigits w)[k]? = some d) : digit (k + 2) w = d := by
  match k with
  | 0 | 1 | 2 => exact Option.some.inj h
  | _ + 3 => cases h

/-- The digits of the parameters an opcode has are range-checked under either policy (rule R60). -/
theorem mem_checkedDigits_of_used {cfg : Config} {op : Opcode} {w d : Nat}
    (h : d ∈ (modeDigits w).take op.operandCount) : d ∈ checkedDigits cfg op w := by
  unfold checkedDigits
  split
  · exact List.mem_of_mem_take h
  · exact h

/-- The mode of a parameter the opcode has is the one whose code is the parameter's digit (rule R55). -/
theorem decodeHead_used_mode {cfg : Config} {w : Word} {h : Head} {k : Nat} {m : Mode}
    (hd : decodeHead cfg w = .ok h) (hm : ([h.m1, h.m2, h.m3].take h.op.operandCount)[k]? = some m) :
    digit (k + 2) w.toInt.toNat = m.code := by
  obtain ⟨_, _, hmodes⟩ := decodeHead_ok_iff.mp hd
  obtain ⟨hchecked, _, hh⟩ := decodeModes_ok_iff.mp hmodes
  have hsel : [h.m1, h.m2, h.m3] = (modeDigits w.toInt.toNat).map Mode.ofDigit := by rw [hh]; rfl
  rw [hsel, ← List.map_take, List.getElem?_map, Option.map_eq_some_iff] at hm
  obtain ⟨d, hk, rfl⟩ := hm
  have hle : d ≤ 2 := hchecked d (mem_checkedDigits_of_used (List.mem_of_getElem? hk))
  rw [List.getElem?_take, Option.ite_none_right_eq_some] at hk
  rw [Mode.code_ofDigit hle, digit_of_modeDigits_getElem? hk.2]

/-- Steps 3 and 4 of rule R61 at a non-negative word: `UnknownOpcode` exactly for a number in no row of the map (rule R56). -/
theorem decodeHead_unknownOpcode_iff {cfg : Config} {w : Word} (h0 : 0 ≤ w.toInt) :
    decodeHead cfg w = .error .unknownOpcode ↔ Opcode.ofCode (w.toInt.toNat % 100) = none := by
  unfold decodeHead
  rw [if_neg (by omega)]
  cases ho : Opcode.ofCode (w.toInt.toNat % 100) with
  | none => simp
  | some op => simpa using fun hm => by cases decodeModes_error hm

/-- An unknown opcode is found in the opcode word, never in the parameter words (rule R61 steps 3 and 4). -/
theorem decodeWords_unknownOpcode_iff {cfg : Config} {w : Word} {ws : List Word} :
    decodeWords cfg (w :: ws) = .error .unknownOpcode ↔ decodeHead cfg w = .error .unknownOpcode := by
  simp [decodeWords_cons_error_iff, takeParams_error_iff]

end Sys2Proof

namespace Sys2Proof.Machine

/-- What the decoder answers at an `IP` inside memory: the instruction is read from the word at `IP` and the three after
it (rule R61). -/
theorem State.decode_ok_cases {s : State} {i : Instr} (h : s.decode = .ok i) :
    ∃ (n : Nat) (hd : Head) (rest : List Word), s.ip.toInt = n ∧ n < s.mem.len ∧
      decodeHead s.cfg (s.mem.word n) = .ok hd ∧ takeParams hd (s.mem.wordsFrom (n + 1) 3) = .ok (i, rest) := by
  obtain ⟨rest, hw⟩ := State.decode_ok_iff.mp h
  rcases s.ip_cases with hout | ⟨n, hip, hn⟩
  · rw [State.fetchWords_of_invalid hout] at hw
    cases hw
  · rw [State.fetchWords_of_valid hip hn] at hw
    obtain ⟨hd, hhead, hparams⟩ := decodeWords_cons_ok_iff.mp hw
    exact ⟨n, hd, rest, hip, hn, hhead, hparams⟩

/-- The faults an instruction itself can raise are not the decoder's (rules R132, R135, R136). -/
theorem exec_takeFault_cases {i : Instr} {s : State} {r : Fault} (h : exec i s = .next (s.takeFault r)) :
    r = .invalidAddress ∨ r = .immediateWriteTarget ∨ r = .arithmeticOverflow := by
  have hst {u : State} {st : Status} (e : s.takeFault r = u.latch st) : .faulted r = st := congrArg State.status e
  rcases exec_next_cases h with ⟨_, _, _, _, _, _, _, _, _, _, _, ht⟩ | ⟨_, _, _, _, _, _, ht⟩ | ⟨_, _, _, _, ht⟩ |
    ⟨_, _, _, _, _, _, _, ⟨_, ht⟩ | ⟨_, ht⟩⟩ | ⟨_, _, _, _, ht⟩ | ⟨_, ht⟩ | ⟨_, _, _, ht⟩ | ⟨r', ht, hr⟩
  case inr.inr.inr.inr.inr.inr.inr =>
    obtain rfl : r = r' := Status.faulted.inj (hst ht)
    rcases hr with hr | ⟨hr, _⟩ | ⟨hr, _⟩ <;> simp [hr]
  all_goals cases hst ht

/-- A step of a non-terminal state ends in a fault of the decoder exactly when the decoder raises it (rules R110, R137). -/
theorem stepFaultsWith_iff_decode_error {s : State} {r : Fault} (hs : s.terminal = false)
    (hr : r = .memoryOverflow ∨ r = .unknownOpcode ∨ r = .unknownParameterMode) :
    StepFaultsWith s r ↔ s.decode = .error r := by
  constructor
  · intro h
    rcases step_next_iff.mp h with ⟨ht, _⟩ | ⟨_, r', hd, ht⟩ | ⟨_, i, _, hi⟩
    · rw [hs] at ht; cases ht
    · obtain rfl : r = r' := Status.faulted.inj (congrArg State.status ht)
      exact hd
    · rcases exec_takeFault_cases hi with rfl | rfl | rfl <;> simp at hr
  · exact fun hd => step_next_iff.mpr (.inr (.inl ⟨hs, r, hd, rfl⟩))

/-- Inside memory the decoder raises `UnknownOpcode` exactly when it does so on the word at `IP` (rule R61). -/
theorem State.decode_unknownOpcode_iff {s : State} {n : Nat} (hip : s.ip.toInt = n) (hn : n < s.mem.len) :
    s.decode = .error .unknownOpcode ↔ decodeHead s.cfg (s.mem.word n) = .error .unknownOpcode := by
  rw [State.decode_error_iff, State.fetchWords_of_valid hip hn, ← decodeWords_unknownOpcode_iff]
  constructor
  · rintro ⟨e, he, hf⟩
    cases e
    case unknownOpcode => exact he
    all_goals cases hf
  · exact fun he => ⟨_, he, rfl⟩

/-- Settles O3: the opcode word by `decodeHead`, the parameter words by `takeParams`. -/
theorem decodedParametersAreTheWordsAtIp : Obligations.DecodedParametersAreTheWordsAtIp := by
  unfold Obligations.DecodedParametersAreTheWordsAtIp
  intro s i h
  obtain ⟨n, hd, rest, hip, hn, hhead, hparams⟩ := State.decode_ok_cases h
  obtain ⟨h0, hcode, _⟩ := decodeHead_ok_iff.mp hhead
  obtain ⟨hop, hvalues, hmodes⟩ := takeParams_ok_iff.mp hparams
  refine ⟨n, hip, ?_, h0, by rw [hop, hcode], fun k p hk => ⟨?_, ?_⟩⟩
  · have hlen := congrArg List.length hvalues
    simp only [Memory.length_wordsFrom, List.length_append, List.length_map, Instr.length_params] at hlen
    unfold Instr.size
    omega
  · have hget : (s.mem.wordsFrom (n + 1) 3)[k]? = some p.value := by
      have hlt : k < i.params.length := (List.getElem?_eq_some_iff.mp hk).1
      rw [hvalues, List.getElem?_append_left (by simpa using hlt), List.getElem?_map, hk, Option.map_some]
    rw [Memory.getElem?_wordsFrom, Option.ite_none_right_eq_some] at hget
    rw [show n + k + 1 = n + 1 + k by omega]
    exact (Option.some.inj hget.2).symm
  · exact decodeHead_used_mode hhead (by rw [← hmodes]; simp [hk])

/-- Settles O4: the step raises what the decoder raises, and the decoder by the opcode map. -/
theorem unknownOpcodeExactlyOutsideTheTable : Obligations.UnknownOpcodeExactlyOutsideTheTable := by
  unfold Obligations.UnknownOpcodeExactlyOutsideTheTable
  rintro s n ⟨hs, hip, hn⟩ h0
  rw [stepFaultsWith_iff_decode_error hs (by simp), State.decode_unknownOpcode_iff hip hn,
    decodeHead_unknownOpcode_iff h0, Opcode.ofCode_eq_none_iff (Nat.mod_lt _ (by decide))]
  omega

end Sys2Proof.Machine
end

section
/-! PROOFS. The comparisons LT and EQ (spec/40_arith_compare.md rules R80, R83, R84): the encoding of format `F3`, what a
completed `F3` instruction leaves, which faults one without an overflow check raises, and the two obligations assembled
from these. -/

namespace Sys2Proof

/-- The opcode word and the three parameter words of an instruction of format `F3` (rules R51, R65). -/
theorem encode_of_three_params {i : Instr} {p1 p2 p3 : Param} (h : i.params = [p1, p2, p3]) :
    encode i = [BitVec.ofNat 64 (i.opcode.code + 100 * p1.mode.code + 1000 * p2.mode.code + 10000 * p3.mode.code),
      p1.value, p2.value, p3.value] := by
  simp [encode, encodeHead, Instr.modeDigit, h]

end Sys2Proof

namespace Sys2Proof.Machine

theorem toInt_truthWord (p : Prop) [Decidable p] : (truthWord (decide p)).toInt = if p then 1 else 0 := by
  by_cases h : p <;> simp [truthWord, h]

/-- A state whose memory is the old one after one write stores that word and nothing else (rules R32, R38). -/
theorem storesOnly_of_mem_eq_write {s t : State} {d : Nat} {v : Word} (h : t.mem = s.mem.write d v) :
    StoresOnly s t d v.toInt := by
  refine ⟨?_, ?_, fun n hne => ?_⟩
  · rw [h, Memory.len_write]
  · rw [h, Memory.word_write_same]
  · rw [h, Memory.word_write_other s.mem v hne]

/-- A completed instruction of format `F3` stores its result, advances `IP` by 4 and changes nothing else (rule R80). -/
theorem execF3_stores {f : Word → Word → Except Fault Word} {p1 p2 p3 : Param} {s : State} {a b v : Word} {d : Nat}
    (h1 : ReadsAs s p1 a) (h2 : ReadsAs s p2 b) (hf : f a b = .ok v) (hd : NamesCell s p3 d) :
    ∃ t, execF3 f p1 p2 p3 s = .next t ∧
      t = { s with mem := t.mem, ip := s.ip + 4, status := .running } ∧ StoresOnly s t d v.toInt :=
  ⟨_, execF3_completes h1 h2 hf hd, rfl, storesOnly_of_mem_eq_write rfl⟩

/-- Where the result never faults, the faults of format `F3` are those of its operands (rule R80). -/
theorem execF3_faults_of_total {f : Word → Word → Except Fault Word} (hf : ∀ a b r, f a b ≠ .error r)
    {p1 p2 p3 : Param} {s t : State} {r : Fault} (h : execF3 f p1 p2 p3 s = .next t) (ht : t.status = .faulted r) :
    r = .invalidAddress ∨ r = .immediateWriteTarget := by
  rcases execF3_next h with ⟨_, _, _, _, _, _, _, _, rfl⟩ | ⟨r', rfl, hr⟩
  · cases ht
  · obtain rfl : r' = r := Status.faulted.inj ht
    rcases hr with ⟨hr, _⟩ | ⟨_, _, _, hr, _⟩ | ⟨a, b, _, _, hr⟩
    · exact .inl hr
    · exact .inr hr
    · exact absurd hr (hf a b r')

/-- LT is the format `F3` with the signed comparison as its result (rule R83). -/
theorem exec_lt (p1 p2 p3 : Param) (s : State) :
    exec (.lt p1 p2 p3) s = execF3 (fun x y => .ok (truthWord (decide (x.toInt < y.toInt)))) p1 p2 p3 s := rfl

/-- EQ is the format `F3` with the equality of the two words as its result (rule R84). -/
theorem exec_eq (p1 p2 p3 : Param) (s : State) :
    exec (.eq p1 p2 p3) s = execF3 (fun x y => .ok (truthWord (decide (x = y)))) p1 p2 p3 s := rfl

/-- Settles O14: the rules above for format `F3`, at the signed comparison. -/
theorem lessThanWritesOneOrZero : Obligations.LessThanWritesOneOrZero := by
  unfold Obligations.LessThanWritesOneOrZero
  refine ⟨fun p1 p2 p3 => encode_of_three_params rfl, fun s p1 p2 p3 a b d h1 h2 hd => ?_, fun s t p1 p2 p3 r h ht => ?_⟩
  · rw [exec_lt, ← toInt_truthWord]
    exact execF3_stores h1 h2 rfl hd
  · rw [exec_lt] at h
    exact execF3_faults_of_total (by simp) h ht

/-- Settles O15: the rules above for format `F3`, at the equality of words, which is the equality of their values. -/
theorem equalsWritesOneOrZero : Obligations.EqualsWritesOneOrZero := by
  unfold Obligations.EqualsWritesOneOrZero
  refine ⟨fun p1 p2 p3 => encode_of_three_params rfl, fun s p1 p2 p3 a b d h1 h2 hd => ?_, fun s t p1 p2 p3 r h ht => ?_⟩
  · simp only [exec_eq, BitVec.toInt_inj, ← toInt_truthWord]
    exact execF3_stores h1 h2 rfl hd
  · rw [exec_eq] at h
    exact execF3_faults_of_total (by simp) h ht

end Sys2Proof.Machine
end

section
/-! PROOFS. OUT (spec/41_input_output.md rule R91): the encoding of an instruction of one parameter, what every source operand
is (rule R33), the two ends of OUT, and the obligation assembled from these. -/

namespace Sys2Proof

/-- The opcode word and the parameter word of an instruction of one parameter: the absent mode digits are 0 (rules R51,
R65). -/
theorem encode_of_one_param {i : Instr} {p : Param} (h : i.params = [p]) :
    encode i = [BitVec.ofNat 64 (i.opcode.code + 100 * p.mode.code), p.value] := by
  simp [encode, encodeHead, Instr.modeDigit, h]

end Sys2Proof

namespace Sys2Proof.Machine

/-- The Addressing Unit answers for every source operand: a value, or its effective address is out of range (rule R33). -/
theorem readsAs_or_outOfRange (s : State) (p : Param) : (∃ v, ReadsAs s p v) ∨ OutOfRange s p := by
  cases h : s.resolveRead p with
  | ok v => exact .inl ⟨v, State.resolveRead_ok_iff.mp h⟩
  | error r => exact .inr (State.resolveRead_error_iff.mp h).2

/-- OUT of a readable source appends its value and advances `IP` by 2 (rule R91). -/
theorem execOut_completes {s : State} {src : Param} {v : Word} (h : ReadsAs s src v) :
    execOut src s = .next (((s.appendOut v).advance 2).latch .running) :=
  State.finish_next_iff.mpr <| .inl
    ⟨_, except_bind_ok_iff.mpr ⟨v, State.resolveRead_ok_iff.mpr h, rfl⟩, rfl⟩

/-- OUT of an unreadable source takes the fault on the state before it (rules R91, R132). -/
theorem execOut_outOfRange {s : State} {src : Param} (h : OutOfRange s src) :
    execOut src s = .next (s.takeFault .invalidAddress) :=
  State.finish_next_iff.mpr <| .inr
    ⟨_, except_bind_error_iff.mpr (.inl (State.resolveRead_error_iff.mpr ⟨rfl, h⟩)), rfl⟩

/-- Settles O20: the encoding with one parameter, the two ends of OUT, and that every source leads to one of them. -/
theorem outputAppendsOneValue : Obligations.OutputAppendsOneValue := by
  unfold Obligations.OutputAppendsOneValue
  refine ⟨fun p => encode_of_one_param rfl, fun s p v hv => ?_, fun s p hout => ?_, readsAs_or_outOfRange⟩
  · exact execOut_completes hv
  · exact execOut_outOfRange hout

end Sys2Proof.Machine
end

section
/-! PROOFS. HALT (spec/44_halt.md rule R103): the encoding of an instruction without parameters, the decoder on an opcode
word written with legal mode digits (rules R51, R60), the one end of HALT, and the obligation assembled from these. -/

namespace Sys2Proof

/-- An instruction without parameters is its opcode alone: every mode digit is absent, so 0 (rules R51, R65). -/
theorem encode_of_no_params {i : Instr} (h : i.params = []) : encode i = [BitVec.ofNat 64 i.opcode.code] := by
  simp [encode, encodeHead, Instr.modeDigit, h]

/-- Under either policy the range-checked digits are among the three mode digits (rule R60). -/
theorem mem_modeDigits_of_checked {cfg : Config} {op : Opcode} {w d : Nat} (h : d ∈ checkedDigits cfg op w) :
    d ∈ modeDigits w := by
  unfold checkedDigits at h
  split at h
  · exact h
  · exact List.mem_of_mem_take h

section
variable {m1 m2 m3 : Nat} (h1 : m1 ≤ 2) (h2 : m2 ≤ 2) (h3 : m3 ≤ 2)
include h1 h2 h3

/-- The opcode word `opcode + 100*m1 + 1000*m2 + 10000*m3` has the mode digits `m1, m2, m3` (rule R51). -/
theorem modeDigits_opcodeWord {c : Nat} (hc : c < 100) :
    modeDigits (c + 100 * m1 + 1000 * m2 + 10000 * m3) = [m1, m2, m3] := by
  simp only [modeDigits, digit, List.cons.injEq, and_true]
  omega

/-- Legal digits in the mode positions, used or not, pass steps 5 and 6 of rule R61 under every policy. -/
theorem decodeModes_opcodeWord (cfg : Config) (op : Opcode) :
    decodeModes cfg op (op.code + 100 * m1 + 1000 * m2 + 10000 * m3) =
      .ok ⟨op, .ofDigit m1, .ofDigit m2, .ofDigit m3⟩ := by
  have hc := op.code_lt
  have hdigits := modeDigits_opcodeWord h1 h2 h3 hc
  refine decodeModes_ok_iff.mpr ⟨fun d hd => ?_, fun _ => by omega, ?_⟩
  · have hmem := mem_modeDigits_of_checked hd
    rw [hdigits] at hmem
    simp only [List.mem_cons, List.not_mem_nil, or_false] at hmem
    omega
  · simp only [modeDigits, List.cons.injEq, and_true] at hdigits
    obtain ⟨d1, d2, d3⟩ := hdigits
    rw [d1, d2, d3]

/-- The decoder reads back the opcode and the three mode digits an opcode word is made of (rules R51, R65). -/
theorem decodeHead_opcodeWord (cfg : Config) (op : Opcode) :
    decodeHead cfg (BitVec.ofNat 64 (op.code + 100 * m1 + 1000 * m2 + 10000 * m3)) =
      .ok ⟨op, .ofDigit m1, .ofDigit m2, .ofDigit m3⟩ := by
  have hc := op.code_lt
  have hw : (BitVec.ofNat 64 (op.code + 100 * m1 + 1000 * m2 + 10000 * m3)).toInt =
      (op.code + 100 * m1 + 1000 * m2 + 10000 * m3 : Nat) := by
    rw [BitVec.toInt_ofNat', Int.bmod_eq_of_le (by omega) (by omega)]
  refine decodeHead_ok_iff.mpr ⟨by omega, by simp only [hw]; omega, ?_⟩
  rw [hw, Int.toNat_natCast]
  exact decodeModes_opcodeWord h1 h2 h3 cfg op

end

/-- HALT takes no parameter word: what follows its opcode word is left over (rules R50, R61). -/
theorem decodeWords_halt_of_head {cfg : Config} {w : Word} {h : Head} (hd : decodeHead cfg w = .ok h) (hop : h.op = .halt)
    (rest : List Word) : decodeWords cfg (w :: rest) = .ok (.halt, rest) :=
  decodeWords_cons_ok_iff.mpr ⟨h, hd, takeParams_ok_iff.mpr ⟨hop.symm, rfl, by rw [hop]; rfl⟩⟩

end Sys2Proof

namespace Sys2Proof.Machine

/-- HALT reports the word at address 0 and advances `IP` by 1 (rule R103). -/
theorem exec_halt (s : State) : exec .halt s = .next ((s.advance 1).latch (.halted (s.mem.word 0))) := rfl

/-- Only an instruction inside memory is decoded, so address 0 exists (rule R61 step 1). -/
theorem State.mem_len_pos_of_decode_ok {s : State} {i : Instr} (h : s.decode = .ok i) : 0 < s.mem.len := by
  obtain ⟨_, _, _, _, hn, _⟩ := State.decode_ok_cases h
  exact Nat.zero_lt_of_lt hn

/-- Settles O27: HALT's encoding, its opcode word with legal digits in the unused positions, its one end, and that a
decoded instruction lies in memory. -/
theorem haltReportsCellZero : Obligations.HaltReportsCellZero := by
  unfold Obligations.HaltReportsCellZero
  refine ⟨encode_of_no_params rfl, fun cfg m1 m2 m3 rest h1 h2 h3 => ?_, exec_halt, fun s h => ?_⟩
  · exact decodeWords_halt_of_head (decodeHead_opcodeWord h1 h2 h3 cfg .halt) rfl rest
  · exact State.mem_len_pos_of_decode_ok h

end Sys2Proof.Machine
end

section
/-! PROOFS. The suspension of IN (spec/45_engine_operations.md rule R116): the one way a step comes to wait, what a step of
a decoded instruction is, IN on the empty queue, and the obligation assembled from these. -/

namespace Sys2Proof.Machine

/-- The queue has no value to read exactly when the cursor is at or past its end (rule R14). -/
theorem State.nextInput_eq_none_iff {s : State} : s.nextInput = none ↔ s.inq.length ≤ s.cur :=
  List.getElem?_eq_none_iff

/-- Only an IN on the empty queue leaves `WaitingForInput`: every other end of an instruction latches another status
(rules R90, R114). -/
theorem exec_waiting_cases {i : Instr} {s t : State} (h : exec i s = .next t) (ht : t.status = .waitingForInput) :
    ∃ dst, i = .inp dst ∧ s.nextInput = none ∧ t = s.latch .waitingForInput := by
  rcases exec_next_cases h with ⟨_, _, _, _, _, _, _, _, _, _, _, rfl⟩ | ⟨_, _, _, _, _, _, rfl⟩ | ⟨_, _, _, _, rfl⟩ |
    ⟨_, _, _, _, _, _, _, ⟨_, rfl⟩ | ⟨_, rfl⟩⟩ | ⟨_, _, _, _, rfl⟩ | ⟨_, rfl⟩ | hin | ⟨_, rfl, _⟩
  case inr.inr.inr.inr.inr.inr.inl => exact hin
  all_goals cases ht

/-- A step that comes to wait has decoded an IN in a non-terminal state with the queue empty (rules R110, R116). -/
theorem step_waiting_cases {s t : State} (h : step s = .next t) (ht : t.status = .waitingForInput) :
    ∃ dst, s.decode = .ok (.inp dst) ∧ s.nextInput = none ∧ t = s.latch .waitingForInput := by
  rcases step_next_iff.mp h with ⟨hs, rfl⟩ | ⟨_, _, _, rfl⟩ | ⟨_, i, hd, hi⟩
  · rcases State.terminal_eq_true_iff.mp hs with ⟨_, hst⟩ | ⟨_, hst⟩ <;> rw [ht] at hst <;> cases hst
  · cases ht
  · obtain ⟨dst, rfl, hn, rfl⟩ := exec_waiting_cases hi ht
    exact ⟨dst, hd, hn, rfl⟩

/-- In a non-terminal state the step is the decoded instruction (rule R110). -/
theorem step_of_decode_ok {s : State} {i : Instr} (hs : s.terminal = false) (hd : s.decode = .ok i) :
    step s = exec i s := by
  simp [step, hs, hd]

/-- IN on the empty queue changes only `STATUS`, whatever its target (rule R90). -/
theorem exec_inp_of_empty {s : State} (dst : Param) (hn : s.nextInput = none) :
    exec (.inp dst) s = .next (s.latch .waitingForInput) := by
  simp [exec, execIn, hn]

/-- The decoder does not look at `STATUS` (rule R61). -/
@[simp] theorem State.decode_latch (s : State) (st : Status) : (s.latch st).decode = s.decode :=
  State.decode_congr rfl rfl rfl

/-- The decoder does not look at the queue (rule R61). -/
@[simp] theorem State.decode_pushInput (s : State) (v : Word) : (s.pushInput v).decode = s.decode :=
  State.decode_congr rfl rfl rfl

/-- Settles O34: the one way a step comes to wait; neither the latched status nor a pushed value changes what is decoded
next, and a waiting state is not terminal. -/
theorem suspendedInputIsRetried : Obligations.SuspendedInputIsRetried := by
  unfold Obligations.SuspendedInputIsRetried
  intro s t h ht
  obtain ⟨dst, hd, hn, rfl⟩ := step_waiting_cases h ht
  refine ⟨rfl, rfl, State.nextInput_eq_none_iff.mp hn, dst, hd, ?_, fun v => ?_⟩
  · calc step (s.latch .waitingForInput)
        = exec (.inp dst) (s.latch .waitingForInput) := step_of_decode_ok rfl (by simpa using hd)
      _ = .next (s.latch .waitingForInput) := exec_inp_of_empty dst hn
  · exact step_of_decode_ok rfl (by simpa using hd)

end Sys2Proof.Machine
end

section
/-! PROOFS. The decoder reads back what the encoder writes (spec/30_encoding.md rules R51, R55, R65), words written out by
hand, and opcode words that differ only in unused mode digits (rules R60, R63). -/

namespace Sys2Proof

/-- The modes of an instruction's parameters are those its opcode word's head gives, in parameter order (rule R55). -/
theorem Instr.map_mode_params (i : Instr) :
    i.params.map Param.mode = [i.head.m1, i.head.m2, i.head.m3].take i.opcode.operandCount := by
  cases i <;> simp [Instr.params, Instr.head, Instr.modeDigit, Instr.opcode, Opcode.operandCount]

/-- The opcode word the encoder writes decodes to the instruction's head under every policy (rules R51, R65). -/
theorem decodeHead_encodeHead (cfg : Config) (i : Instr) : decodeHead cfg (encodeHead i) = .ok i.head :=
  decodeHead_opcodeWord (i.modeDigit_le_two 0) (i.modeDigit_le_two 1) (i.modeDigit_le_two 2) cfg i.opcode

/-- The parameter words the encoder writes are read back under the instruction's own modes (rules R55, R61). -/
theorem takeParams_encoded (i : Instr) (rest : List Word) :
    takeParams i.head (i.params.map Param.value ++ rest) = .ok (i, rest) :=
  takeParams_ok_iff.mpr ⟨rfl, rfl, i.map_mode_params⟩

/-- Settles O1: the head by the opcode word, then the parameters by the words after it. -/
theorem decodeOfEncodeIsTheInstruction : Obligations.DecodeOfEncodeIsTheInstruction := by
  unfold Obligations.DecodeOfEncodeIsTheInstruction
  intro cfg i rest
  exact decodeWords_cons_ok_iff.mpr ⟨i.head, decodeHead_encodeHead cfg i, takeParams_encoded i rest⟩

/-- Settles O2: the decoder run on each of the seven words. -/
theorem wordsWrittenByHandDecode : Obligations.WordsWrittenByHandDecode := by
  unfold Obligations.WordsWrittenByHandDecode
  decide

/-- The three mode digits are the decimal digits at positions 2, 3 and 4 (rule R51). -/
theorem modeDigits_eq_map (w : Nat) : modeDigits w = (List.range 3).map fun k => digit (k + 2) w := rfl

/-- Words that agree in the first digits agree in the modes of as many parameters. -/
theorem take_modeDigits_congr {n w w' : Nat} (h : ∀ k < n, digit (k + 2) w' = digit (k + 2) w) :
    (modeDigits w').take n = (modeDigits w).take n := by
  simp only [modeDigits_eq_map, ← List.map_take, List.take_range]
  exact List.map_congr_left fun k hk => h k (by simp at hk; omega)

/-- The modes of a head are those its word's mode digits select (rule R51). -/
theorem modes_of_decodeHead {cfg : Config} {w : Word} {h : Head} (hd : decodeHead cfg w = .ok h) :
    [h.m1, h.m2, h.m3] = (modeDigits w.toInt.toNat).map Mode.ofDigit := by
  obtain ⟨_, _, hmodes⟩ := decodeHead_ok_iff.mp hd
  obtain ⟨_, _, hh⟩ := decodeModes_ok_iff.mp hmodes
  rw [hh]
  rfl

/-- A word of five digits with an opcode of the map and legal digits in all three mode positions is accepted under every
policy (rules R57, R59, R60). -/
theorem decodeHead_of_legal_digits {w : Word} {op : Opcode} (cfg : Config) (h0 : 0 ≤ w.toInt) (h5 : w.toInt < 100000)
    (hcode : w.toInt % 100 = op.code) (hlegal : ∀ k < 3, digit (k + 2) w.toInt.toNat ≤ 2) :
    ∃ h, decodeHead cfg w = .ok h ∧ h.op = op := by
  refine ⟨⟨op, _, _, _⟩, decodeHead_ok_iff.mpr
    ⟨h0, hcode, decodeModes_ok_iff.mpr ⟨fun d hd => ?_, fun _ => by omega, rfl⟩⟩, rfl⟩
  have hmem := mem_modeDigits_of_checked hd
  simp only [modeDigits_eq_map, List.mem_map, List.mem_range] at hmem
  obtain ⟨k, hk, rfl⟩ := hmem
  exact hlegal k hk

/-- Settles O8: the second word is accepted too, with the same opcode and the same modes for the parameters there are. -/
theorem unusedModeDigitsAreIgnored : Obligations.UnusedModeDigitsAreIgnored := by
  unfold Obligations.UnusedModeDigitsAreIgnored
  intro cfg w w' ws rest i hdec h0 h5 hcode hused hlegal
  obtain ⟨h, hh, hparams⟩ := decodeWords_cons_ok_iff.mp hdec
  obtain ⟨hop, hvalues, hmodes⟩ := takeParams_ok_iff.mp hparams
  obtain ⟨_, hc, _⟩ := decodeHead_ok_iff.mp hh
  obtain ⟨h', hh', hop'⟩ := decodeHead_of_legal_digits cfg h0 h5 (hcode.trans hc) hlegal
  refine decodeWords_cons_ok_iff.mpr ⟨h', hh', takeParams_ok_iff.mpr ⟨hop.trans hop'.symm, hvalues, ?_⟩⟩
  rw [hmodes, modes_of_decodeHead hh, modes_of_decodeHead hh', hop', ← hop, ← List.map_take, ← List.map_take,
    take_modeDigits_congr hused]

end Sys2Proof
end

section
/-! PROOFS. The faults of the decoder, step by step of rule R61 (spec/30_encoding.md; spec/60_exceptions.md rules R131, R133,
R134), and the obligations that say exactly when a step raises each. -/

namespace Sys2Proof

/-- The range-checked digits are those of all three positions, or of the positions the opcode uses (rule R60). -/
theorem mem_checkedDigits_iff {cfg : Config} {op : Opcode} {w d : Nat} :
    d ∈ checkedDigits cfg op w ↔
      ∃ k < 3, (cfg.unusedModes = .allThree ∨ k < op.operandCount) ∧ digit (k + 2) w = d := by
  unfold checkedDigits
  split <;> rename_i hcfg <;>
    simp only [hcfg, modeDigits_eq_map, ← List.map_take, List.take_range, List.mem_map, List.mem_range]
  · simp
  · simp only [reduceCtorEq, false_or]
    exact exists_congr fun k => ⟨fun ⟨hk, hd⟩ => ⟨by omega, by omega, hd⟩, fun ⟨_, hk, hd⟩ => ⟨by omega, hd⟩⟩

/-- What steps 5 and 6 of rule R61 refuse: a checked digit above 2, or a high digit under policy `fault`. -/
theorem decodeModes_error_iff {cfg : Config} {op : Opcode} {w : Nat} :
    decodeModes cfg op w = .error .unknownParameterMode ↔
      (∃ k, k < 3 ∧ (cfg.unusedModes = .allThree ∨ k < op.operandCount) ∧ 2 < digit (k + 2) w) ∨
        (cfg.highDigits = .fault ∧ w / 100000 ≠ 0) := by
  have hchecked : (checkedDigits cfg op w).any (fun d => decide (2 < d)) = true ↔
      ∃ k, k < 3 ∧ (cfg.unusedModes = .allThree ∨ k < op.operandCount) ∧ 2 < digit (k + 2) w := by
    simp only [List.any_eq_true, decide_eq_true_eq, mem_checkedDigits_iff]
    constructor
    · rintro ⟨_, ⟨k, hk, hused, rfl⟩, h2⟩
      exact ⟨k, hk, hused, h2⟩
    · rintro ⟨k, hk, hused, h2⟩
      exact ⟨_, ⟨k, hk, hused, rfl⟩, h2⟩
  unfold decodeModes
  rw [← hchecked]
  split
  case isTrue hbad => exact iff_of_true rfl (.inl hbad)
  case isFalse hgood =>
    rw [or_iff_right hgood]
    split
    case isTrue hhigh => exact iff_of_true rfl hhigh
    case isFalse hhigh => exact iff_of_false (by simp) hhigh

/-- At a word whose opcode is in the map, steps 3 to 6 of rule R61 are steps 5 and 6. -/
theorem decodeHead_of_code {w : Word} {op : Opcode} (cfg : Config) (h0 : 0 ≤ w.toInt) (hcode : w.toInt % 100 = op.code) :
    decodeHead cfg w = decodeModes cfg op w.toInt.toNat := by
  unfold decodeHead
  rw [if_neg (by omega), show w.toInt.toNat % 100 = op.code by omega, Opcode.ofCode_code]

/-- A negative opcode word is an unknown opcode (rule R58). -/
theorem decodeHead_of_neg {w : Word} (cfg : Config) (h : w.toInt < 0) : decodeHead cfg w = .error .unknownOpcode :=
  if_pos h

/-- A bad mode is found in the opcode word, never in the parameter words (rule R61 steps 5 and 6). -/
theorem decodeWords_unknownParameterMode_iff {cfg : Config} {w : Word} {ws : List Word} :
    decodeWords cfg (w :: ws) = .error .unknownParameterMode ↔ decodeHead cfg w = .error .unknownParameterMode := by
  simp [decodeWords_cons_error_iff, takeParams_error_iff]

/-- The opcode word alone never lacks a word (rule R61 steps 3 to 6). -/
theorem decodeHead_ne_memoryOverflow (cfg : Config) (w : Word) : decodeHead cfg w ≠ .error .memoryOverflow := by
  unfold decodeHead
  split
  · simp
  · split
    · simp
    · exact fun h => by cases decodeModes_error h

/-- With an opcode word at hand, `MemoryOverflow` is an accepted opcode word with too few words after it (rule R61 step 7). -/
theorem decodeWords_memoryOverflow_iff {cfg : Config} {w : Word} {ws : List Word} :
    decodeWords cfg (w :: ws) = .error .memoryOverflow ↔
      ∃ h, decodeHead cfg w = .ok h ∧ ws.length < h.op.operandCount := by
  simp [decodeWords_cons_error_iff, takeParams_error_iff, decodeHead_ne_memoryOverflow]

end Sys2Proof

namespace Sys2Proof.Machine

theorem faultOfDecode_injective : Function.Injective faultOfDecode := by
  intro e e' h
  cases e <;> cases e' <;> simp_all [faultOfDecode]

/-- A fault of the decoder is the rejection it stands for (rules R131, R133, R134). -/
theorem State.decode_eq_fault_iff {s : State} {e : DecodeError} :
    s.decode = .error (faultOfDecode e) ↔ decodeWords s.cfg s.fetchWords = .error e := by
  rw [State.decode_error_iff]
  constructor
  · rintro ⟨e', he, hf⟩
    rwa [faultOfDecode_injective hf]
  · exact fun he => ⟨e, he, rfl⟩

/-- Settles O5: the step raises what the decoder raises on the word at `IP`. -/
theorem negativeOpcodeWordFaults : Obligations.NegativeOpcodeWordFaults := by
  unfold Obligations.NegativeOpcodeWordFaults
  rintro s n ⟨hs, hip, hn⟩ hneg
  rw [stepFaultsWith_iff_decode_error hs (by simp), State.decode_unknownOpcode_iff hip hn]
  exact decodeHead_of_neg s.cfg hneg

/-- Settles O6: the step raises what the decoder raises, and the decoder by steps 5 and 6 of rule R61. -/
theorem unknownParameterModeExactlyWhen : Obligations.UnknownParameterModeExactlyWhen := by
  unfold Obligations.UnknownParameterModeExactlyWhen
  rintro s n op ⟨hs, hip, hn⟩ h0 hcode
  have hhigh : (s.mem.word n).toInt.toNat / 100000 ≠ 0 ↔ 100000 ≤ (s.mem.word n).toInt := by omega
  calc StepFaultsWith s .unknownParameterMode
      ↔ s.decode = .error (faultOfDecode .unknownParameterMode) := stepFaultsWith_iff_decode_error hs (by simp)
    _ ↔ decodeModes s.cfg op (s.mem.word n).toInt.toNat = .error .unknownParameterMode := by
        rw [State.decode_eq_fault_iff, State.fetchWords_of_valid hip hn, decodeWords_unknownParameterMode_iff,
          decodeHead_of_code s.cfg h0 hcode]
    _ ↔ _ := by
        rw [decodeModes_error_iff, hhigh]

/-- Settles O7: outside memory there is no word to decode; inside, the words from `IP` to the end of memory are counted. -/
theorem memoryOverflowExactlyWhen : Obligations.MemoryOverflowExactlyWhen := by
  unfold Obligations.MemoryOverflowExactlyWhen
  intro s hs
  have hstep : StepFaultsWith s .memoryOverflow ↔ decodeWords s.cfg s.fetchWords = .error .memoryOverflow :=
    (stepFaultsWith_iff_decode_error hs (by simp)).trans (State.decode_eq_fault_iff (e := .memoryOverflow))
  rw [hstep]
  rcases s.ip_cases with hout | ⟨n, hip, hn⟩
  · rw [State.fetchWords_of_invalid hout]
    exact iff_of_true rfl (hout.imp_right .inl)
  · have hlen (h : Head) :
        (s.mem.wordsFrom (n + 1) 3).length < h.op.operandCount ↔ s.mem.len ≤ n + h.op.operandCount := by
      have hle := h.op.operandCount_le
      rw [Memory.length_wordsFrom]
      omega
    rw [State.fetchWords_of_valid hip hn, decodeWords_memoryOverflow_iff]
    simp only [hlen]
    constructor
    · rintro ⟨h, hh, hend⟩
      exact .inr (.inr ⟨n, h, hip, hn, hh, hend⟩)
    · rintro (hneg | hbig | ⟨m, h, hm, _, hh, hend⟩)
      · omega
      · omega
      · obtain rfl : n = m := by omega
        exact ⟨h, hh, hend⟩

end Sys2Proof.Machine
end

section
/-! PROOFS. The fetch (spec/30_encoding.md rule R61): the words at `IP` are all the decoder needs, a step is the decoded
instruction (spec/45_engine_operations.md rule R110), and words placed at `IP` are the words fetched (log 8). -/

namespace Sys2Proof

/-- Words after those an instruction takes are left over and change nothing (rule R61). -/
theorem decodeWords_append {cfg : Config} {ws rest : List Word} {i : Instr} (h : decodeWords cfg ws = .ok (i, rest))
    (more : List Word) : decodeWords cfg (ws ++ more) = .ok (i, rest ++ more) := by
  cases ws with
  | nil => cases h
  | cons w ws =>
    obtain ⟨hd, hh, hparams⟩ := decodeWords_cons_ok_iff.mp h
    obtain ⟨hop, rfl, hmodes⟩ := takeParams_ok_iff.mp hparams
    exact decodeWords_cons_ok_iff.mpr ⟨hd, hh, takeParams_ok_iff.mpr ⟨hop, List.append_assoc .., hmodes⟩⟩

/-- The words that make up an instruction are as many as its size (rule R50). -/
theorem length_of_decodeWords {cfg : Config} {ws : List Word} {i : Instr} (h : decodeWords cfg ws = .ok (i, [])) :
    ws.length = i.size := by
  cases ws with
  | nil => cases h
  | cons w ws =>
    obtain ⟨hd, _, hparams⟩ := decodeWords_cons_ok_iff.mp h
    obtain ⟨_, rfl, _⟩ := takeParams_ok_iff.mp hparams
    simp [Instr.size]

end Sys2Proof

namespace Sys2Proof.Machine

/-- From a non-negative `IP` the fetch takes the four words there, as far as they lie in memory (rule R61). -/
theorem State.fetchWords_of_natCast {s : State} {n : Nat} (h : s.ip.toInt = n) : s.fetchWords = s.mem.wordsFrom n 4 := by
  simp [State.fetchWords, h]

/-- Words that stand in memory from `a` on are the first of the words read there. -/
theorem Memory.take_wordsFrom {m : Memory} {a n : Nat} {ws : List Word} (hlen : ws.length ≤ n)
    (h : ∀ (k : Nat) (w : Word), ws[k]? = some w → a + k < m.len ∧ m.word (a + k) = w) :
    (m.wordsFrom a n).take ws.length = ws := by
  refine List.ext_getElem? fun k => ?_
  rw [List.getElem?_take, Memory.getElem?_wordsFrom]
  by_cases hk : k < ws.length
  · obtain ⟨hin, hw⟩ := h k ws[k] (List.getElem?_eq_getElem hk)
    rw [if_pos hk, if_pos ⟨by omega, hin⟩, hw, List.getElem?_eq_getElem hk]
  · rw [if_neg hk, List.getElem?_eq_none (by omega)]

/-- Settles O9: the fetched words begin with the instruction's words, and more words change nothing. -/
theorem stepRunsTheDecodedInstruction : Obligations.StepRunsTheDecodedInstruction := by
  unfold Obligations.StepRunsTheDecodedInstruction
  intro s n ws i hs hip hdec hmem
  have hlen : ws.length ≤ 4 := by
    have hle := i.opcode.operandCount_le
    rw [length_of_decodeWords hdec, Instr.size]
    omega
  have hfetch : ws ++ (s.mem.wordsFrom n 4).drop ws.length = s.fetchWords := by
    calc ws ++ (s.mem.wordsFrom n 4).drop ws.length
        = (s.mem.wordsFrom n 4).take ws.length ++ (s.mem.wordsFrom n 4).drop ws.length := by
          rw [Memory.take_wordsFrom hlen hmem]
      _ = s.mem.wordsFrom n 4 := List.take_append_drop ..
      _ = s.fetchWords := (State.fetchWords_of_natCast hip).symm
  exact step_of_decode_ok hs (State.decode_ok_iff.mpr ⟨_, hfetch ▸ decodeWords_append hdec _⟩)

/-- Words written from `a` on leave the addresses below alone. -/
theorem Memory.word_writeWords_of_lt (ws : List Word) (m : Memory) {a b : Nat} (h : b < a) :
    (m.writeWords a ws).word b = m.word b := by
  induction ws generalizing m a with
  | nil => rfl
  | cons w ws ih => rw [Memory.writeWords, ih _ (by omega), Memory.word_write_other m w (by omega)]

/-- Words written inside memory are the words read back there. -/
theorem Memory.wordsFrom_writeWords (ws : List Word) (m : Memory) {a : Nat} (h : a + ws.length ≤ m.len) :
    (m.writeWords a ws).wordsFrom a ws.length = ws := by
  induction ws generalizing m a with
  | nil => rfl
  | cons w ws ih =>
    rw [List.length_cons] at h ⊢
    rw [Memory.wordsFrom, if_pos (by rw [Memory.len_writeWords]; omega), Memory.writeWords, ih _ (by simp; omega),
      Memory.word_writeWords_of_lt ws _ (by omega), Memory.word_write_same]

/-- A longer memory with the same entries is still in canonical form. -/
theorem Memory.wf_of_len_le {m : Memory} (h : m.wf) {len : Nat} (hlen : m.len ≤ len) :
    Memory.wf { m with len := len } :=
  ⟨h.1, fun c hc => ⟨(h.2 c hc).1.trans_le hlen, (h.2 c hc).2⟩⟩

/-- In a non-terminal state the invariant is about memory and the cursor alone. -/
theorem State.inv_of_not_terminal {s : State} (hs : s.terminal = false) (hwf : s.mem.wf) (hlen : s.mem.len ≤ maxMemLen)
    (hcur : s.cur ≤ s.inq.length) : s.Inv := by
  have hst := State.terminal_eq_false_iff.mp hs
  exact ⟨hwf, hlen, hcur, fun h => by simp [h] at hst, fun v h => by simp [h] at hst⟩

/-- The four words placed for a fetch lie within the bound on memory (log 8). -/
theorem State.fetchBase_add_le (s : State) : s.fetchBase + 4 ≤ maxMemLen := by
  unfold State.fetchBase
  split
  · omega
  · decide

theorem State.withFetchWord_terminal (s : State) (nbits w : Nat) : (s.withFetchWord nbits w).terminal = false := by
  cases hs : s.terminal with
  | true => simp [State.withFetchWord, State.terminal_eq_false_iff, hs]
  | false => simpa [State.withFetchWord, State.terminal_eq_false_iff, hs] using State.terminal_eq_false_iff.mp hs

theorem State.withFetchWord_ip (s : State) (nbits w : Nat) : (s.withFetchWord nbits w).ip.toInt = s.fetchBase := by
  have hb := s.fetchBase_add_le
  unfold maxMemLen at hb
  rw [State.withFetchWord, BitVec.toInt_ofNat', Int.bmod_eq_of_le (by omega) (by omega)]

theorem State.withFetchWord_mem (s : State) (nbits w : Nat) :
    (s.withFetchWord nbits w).mem =
      { s.mem with len := max s.mem.len (s.fetchBase + 4) }.writeWords s.fetchBase (tableWords nbits w) := rfl

/-- Settles O10: the four words are written where `IP` then is, and memory is made long enough for them first. -/
theorem placedInstructionIsFetched : Obligations.PlacedInstructionIsFetched := by
  unfold Obligations.PlacedInstructionIsFetched
  intro s nbits w
  have hend : s.fetchBase + (tableWords nbits w).length ≤ max s.mem.len (s.fetchBase + 4) := le_max_right _ _
  refine ⟨s.withFetchWord_terminal nbits w, ?_, fun hinv => ?_⟩
  · rw [State.fetchWords_of_natCast (s.withFetchWord_ip nbits w), State.withFetchWord_mem]
    exact Memory.wordsFrom_writeWords _ _ hend
  · refine State.inv_of_not_terminal (s.withFetchWord_terminal nbits w) ?_ ?_ hinv.cur_le
    · exact Memory.wf_writeWords _ (Memory.wf_of_len_le hinv.mem_wf (le_max_left _ _)) hend
    · rw [State.withFetchWord_mem, Memory.len_writeWords]
      exact max_le hinv.len_le s.fetchBase_add_le

end Sys2Proof.Machine
end

section
/-! PROOFS. ADD and MUL (spec/40_arith_compare.md rules R80 to R82, R85), and the faults of format `F3` in the order of
spec/60_exceptions.md rule R138: one lemma per rank, and the obligations assembled from these. -/

namespace Sys2Proof.Machine

/-- The low 64 bits of an exact integer, as a signed value (rule R85). -/
theorem toInt_wordOf_eq_emod (v : Int) :
    (wordOf v).toInt = (v + 9223372036854775808) % 18446744073709551616 - 9223372036854775808 := by
  rw [wordOf, BitVec.toInt_ofInt, Int.bmod_def]
  norm_num
  omega

section
variable {f : Word → Word → Except Fault Word} {p1 p2 p3 : Param} {s : State}

/-- Rank 7 of rule R138. -/
theorem execF3_first_source_outOfRange (h1 : OutOfRange s p1) :
    execF3 f p1 p2 p3 s = .next (s.takeFault .invalidAddress) :=
  State.finish_next_iff.mpr <| .inr
    ⟨_, except_bind_error_iff.mpr (.inl (State.resolveRead_error_iff.mpr ⟨rfl, h1⟩)), rfl⟩

/-- Rank 8 of rule R138. -/
theorem execF3_second_source_outOfRange {a : Word} (h1 : ReadsAs s p1 a) (h2 : OutOfRange s p2) :
    execF3 f p1 p2 p3 s = .next (s.takeFault .invalidAddress) :=
  State.finish_next_iff.mpr <| .inr ⟨_, by
    simp only [except_bind_error_iff]
    exact .inr ⟨a, State.resolveRead_ok_iff.mpr h1, .inl (State.resolveRead_error_iff.mpr ⟨rfl, h2⟩)⟩, rfl⟩

/-- Rank 9 of rule R138: the destination is not looked at. -/
theorem execF3_result_faults {a b : Word} {r : Fault} (h1 : ReadsAs s p1 a) (h2 : ReadsAs s p2 b)
    (hf : f a b = .error r) : execF3 f p1 p2 p3 s = .next (s.takeFault r) :=
  State.finish_next_iff.mpr <| .inr ⟨_, by
    simp only [except_bind_error_iff]
    exact .inr ⟨a, State.resolveRead_ok_iff.mpr h1, .inr ⟨b, State.resolveRead_ok_iff.mpr h2, .inl hf⟩⟩, rfl⟩

/-- Rank 11 of rule R138. -/
theorem execF3_target_outOfRange {a b v : Word} (h1 : ReadsAs s p1 a) (h2 : ReadsAs s p2 b) (hf : f a b = .ok v)
    (h3 : OutOfRange s p3) : execF3 f p1 p2 p3 s = .next (s.takeFault .invalidAddress) :=
  State.finish_next_iff.mpr <| .inr ⟨_, by
    simp only [except_bind_error_iff]
    exact .inr ⟨a, State.resolveRead_ok_iff.mpr h1, .inr ⟨b, State.resolveRead_ok_iff.mpr h2, .inr ⟨v, hf,
      .inl (State.resolveWriteAddress_error_iff.mpr (.inr ⟨rfl, h3⟩))⟩⟩⟩, rfl⟩

end

/-- ADD is the format `F3` with the checked sum as its result (rule R81). -/
theorem exec_add (p1 p2 p3 : Param) (s : State) :
    exec (.add p1 p2 p3) s = execF3 (fun x y => arith s.cfg.arithOverflow (x.toInt + y.toInt)) p1 p2 p3 s := rfl

/-- MUL is the format `F3` with the checked product as its result (rule R82). -/
theorem exec_mul (p1 p2 p3 : Param) (s : State) :
    exec (.mul p1 p2 p3) s = execF3 (fun x y => arith s.cfg.arithOverflow (x.toInt * y.toInt)) p1 p2 p3 s := rfl

/-- ADD and MUL are the format `F3` with the overflow rule on the exact result (rules R81, R82). -/
theorem exec_add_or_mul {i : Instr} {p1 p2 p3 : Param} {a b : Word} {v : Int} (s : State)
    (hi : (i = .add p1 p2 p3 ∧ v = a.toInt + b.toInt) ∨ (i = .mul p1 p2 p3 ∧ v = a.toInt * b.toInt)) :
    ∃ f, exec i s = execF3 f p1 p2 p3 s ∧ f a b = arith s.cfg.arithOverflow v := by
  rcases hi with ⟨rfl, rfl⟩ | ⟨rfl, rfl⟩
  · exact ⟨_, exec_add .., rfl⟩
  · exact ⟨_, exec_mul .., rfl⟩

/-- ADD and MUL store an accepted result's low 64 bits, advance `IP` by 4 and change nothing else (rules R80, R85). -/
theorem exec_add_or_mul_stores {i : Instr} {s : State} {p1 p2 p3 : Param} {a b : Word} {v : Int} {d : Nat}
    (hi : (i = .add p1 p2 p3 ∧ v = a.toInt + b.toInt) ∨ (i = .mul p1 p2 p3 ∧ v = a.toInt * b.toInt))
    (h1 : ReadsAs s p1 a) (h2 : ReadsAs s p2 b) (hv : ArithAccepts s.cfg.arithOverflow v) (hd : NamesCell s p3 d) :
    ∃ t, exec i s = .next t ∧
      t = { s with mem := t.mem, ip := s.ip + 4, status := .running } ∧ StoresOnly s t d (wordOf v).toInt := by
  obtain ⟨f, hexec, hf⟩ := exec_add_or_mul s hi
  rw [hexec]
  exact execF3_stores h1 h2 (hf.trans (arith_ok_iff.mpr ⟨hv, rfl⟩)) hd

/-- Settles O11: the sum is accepted because it fits, and its word has its value. -/
theorem addWritesTheExactSum : Obligations.AddWritesTheExactSum := by
  unfold Obligations.AddWritesTheExactSum
  intro s p1 p2 p3 a b d h1 h2 hfit hd
  rw [← toInt_wordOf hfit]
  exact exec_add_or_mul_stores (.inl ⟨rfl, rfl⟩) h1 h2 (.inl hfit) hd

/-- Settles O12: the product is accepted because it fits, and its word has its value. -/
theorem mulWritesTheExactProduct : Obligations.MulWritesTheExactProduct := by
  unfold Obligations.MulWritesTheExactProduct
  intro s p1 p2 p3 a b d h1 h2 hfit hd
  rw [← toInt_wordOf hfit]
  exact exec_add_or_mul_stores (.inr ⟨rfl, rfl⟩) h1 h2 (.inl hfit) hd

/-- Settles O13: the overflow rule refuses the result under policy `fault` and accepts it under policy `wrap`. -/
theorem overflowOfAddAndMulFollowsThePolicy : Obligations.OverflowOfAddAndMulFollowsThePolicy := by
  unfold Obligations.OverflowOfAddAndMulFollowsThePolicy
  intro s p1 p2 p3 a b v i hi h1 h2 hfit
  refine ⟨fun hfault => ?_, fun hwrap d hd => ?_⟩
  · obtain ⟨f, hexec, hf⟩ := exec_add_or_mul s hi
    exact hexec.trans (execF3_result_faults h1 h2 (hf.trans (arith_error_iff.mpr ⟨rfl, hfault, hfit⟩)))
  · rw [← toInt_wordOf_eq_emod]
    exact exec_add_or_mul_stores hi h1 h2 (.inr hwrap) hd

/-- Each instruction of format `F3` is the common sequence, and its result is a word where the overflow rule accepts the
sum or the product (rules R80 to R84). -/
theorem exec_three_operands {i : Instr} {p1 p2 p3 : Param} (s : State)
    (hi : i = .add p1 p2 p3 ∨ i = .mul p1 p2 p3 ∨ i = .lt p1 p2 p3 ∨ i = .eq p1 p2 p3) :
    ∃ f, exec i s = execF3 f p1 p2 p3 s ∧ ∀ a b : Word,
      (i = .add p1 p2 p3 → ArithAccepts s.cfg.arithOverflow (a.toInt + b.toInt)) →
      (i = .mul p1 p2 p3 → ArithAccepts s.cfg.arithOverflow (a.toInt * b.toInt)) → ∃ v, f a b = .ok v := by
  rcases hi with rfl | rfl | rfl | rfl
  · exact ⟨_, exec_add .., fun a b hadd _ => ⟨_, arith_ok_iff.mpr ⟨hadd rfl, rfl⟩⟩⟩
  · exact ⟨_, exec_mul .., fun a b _ hmul => ⟨_, arith_ok_iff.mpr ⟨hmul rfl, rfl⟩⟩⟩
  · exact ⟨_, exec_lt .., fun a b _ _ => ⟨_, rfl⟩⟩
  · exact ⟨_, exec_eq .., fun a b _ _ => ⟨_, rfl⟩⟩

/-- Settles O16: the ranks of the common sequence, one after another. -/
theorem threeOperandFaultsComeInOrder : Obligations.ThreeOperandFaultsComeInOrder := by
  unfold Obligations.ThreeOperandFaultsComeInOrder
  intro s p1 p2 p3 i hi
  obtain ⟨f, hexec, hf⟩ := exec_three_operands s hi
  refine ⟨fun h1 => ?_, fun a h1 h2 => ?_, fun a b h1 h2 hadd hmul => ?_⟩
  · exact hexec.trans (execF3_first_source_outOfRange h1)
  · exact hexec.trans (execF3_second_source_outOfRange h1 h2)
  · obtain ⟨v, hv⟩ := hf a b hadd hmul
    exact ⟨fun h3 => hexec.trans (execF3_immediate_target h1 h2 hv h3),
      fun h3 => hexec.trans (execF3_target_outOfRange h1 h2 hv h3)⟩

end Sys2Proof.Machine
end

section
/-! PROOFS. IN (spec/41_input_output.md rule R90): its ends with a value unread and with none, and the obligations
assembled from these. -/

namespace Sys2Proof.Machine

/-- A value is unread exactly when the cursor is inside the queue (rule R14). -/
theorem State.exists_nextInput_iff {s : State} : (∃ v, s.nextInput = some v) ↔ s.cur < s.inq.length := by
  simp [State.nextInput, List.getElem?_eq_some_iff]

section
variable {s : State} {dst : Param} {v : Word}

/-- With a value unread, IN is the resolution of its target and then the write (rule R90). -/
theorem exec_inp_of_unread (hv : s.nextInput = some v) :
    exec (.inp dst) s = s.finish (do
      let d ← s.resolveWriteAddress dst
      pure ((s.consumeInput.writeMem d v).advance 2)) := by
  simp [exec, execIn, hv]

theorem exec_inp_completes {d : Nat} (hv : s.nextInput = some v) (hd : NamesCell s dst d) :
    exec (.inp dst) s = .next (((s.consumeInput.writeMem d v).advance 2).latch .running) :=
  (exec_inp_of_unread hv).trans <| State.finish_next_iff.mpr <| .inl
    ⟨_, except_bind_ok_iff.mpr ⟨d, State.resolveWriteAddress_ok_iff.mpr hd, rfl⟩, rfl⟩

/-- A bad target is a fault on the state before the read of the queue, so the value stays unread (rules R90, R137). -/
theorem exec_inp_faults {r : Fault} (hv : s.nextInput = some v)
    (hr : (r = .immediateWriteTarget ∧ dst.mode = .immediate) ∨ (r = .invalidAddress ∧ OutOfRange s dst)) :
    exec (.inp dst) s = .next (s.takeFault r) :=
  (exec_inp_of_unread hv).trans <| State.finish_next_iff.mpr <| .inr
    ⟨r, except_bind_error_iff.mpr (.inl (State.resolveWriteAddress_error_iff.mpr hr)), rfl⟩

end

/-- Settles O17: IN with a value unread and a target that names a cell. -/
theorem inputConsumesTheNextValue : Obligations.InputConsumesTheNextValue := by
  unfold Obligations.InputConsumesTheNextValue
  intro s dst v d hv hd
  exact ⟨_, exec_inp_completes hv hd, rfl, storesOnly_of_mem_eq_write rfl⟩

/-- Settles O18: an empty queue is looked at before the target is. -/
theorem inputSuspendsOnTheEmptyQueue : Obligations.InputSuspendsOnTheEmptyQueue := by
  unfold Obligations.InputSuspendsOnTheEmptyQueue
  intro s dst hempty
  exact exec_inp_of_empty dst (State.nextInput_eq_none_iff.mpr hempty)

/-- Settles O19: IN with a value unread and a bad target. -/
theorem inputTargetFaultKeepsTheValue : Obligations.InputTargetFaultKeepsTheValue := by
  unfold Obligations.InputTargetFaultKeepsTheValue
  intro s dst hcur
  obtain ⟨v, hv⟩ := State.exists_nextInput_iff.mpr hcur
  exact ⟨fun hm => exec_inp_faults hv (.inl ⟨rfl, hm⟩), fun ho => exec_inp_faults hv (.inr ⟨rfl, ho⟩)⟩

end Sys2Proof.Machine
end

section
/-! PROOFS. JT and JF (spec/42_jumps.md rules R95 to R97) and ARB (spec/43_relative_base.md rule R100): their ends, and the
obligations assembled from these. -/

namespace Sys2Proof.Machine

section
variable {taken : Word → Bool} {p q : Param} {s : State}

/-- A jump with both parameters readable completes: to the target when it is taken, past its three words when not. -/
theorem execJump_completes {c a : Word} (hc : ReadsAs s p c) (ha : ReadsAs s q a) :
    execJump taken p q s = .next { s with ip := if taken c then a else s.ip + 3, status := .running } := by
  refine State.finish_next_iff.mpr <| .inl ⟨if taken c then s.jumpTo a else s.advance 3, ?_, ?_⟩
  · simp only [except_bind_ok_iff]
    exact ⟨c, State.resolveRead_ok_iff.mpr hc, a, State.resolveRead_ok_iff.mpr ha, rfl⟩
  · cases taken c <;> rfl

/-- Both parameters are read before the condition is tested, so either one out of range is a fault (rules R95, R96). -/
theorem execJump_outOfRange (h : OutOfRange s p ∨ OutOfRange s q) :
    execJump taken p q s = .next (s.takeFault .invalidAddress) := by
  refine State.finish_next_iff.mpr <| .inr ⟨_, ?_, rfl⟩
  simp only [except_bind_error_iff]
  rcases readsAs_or_outOfRange s p with ⟨c, hc⟩ | hp
  · by_cases hq : OutOfRange s q
    · exact .inr ⟨c, State.resolveRead_ok_iff.mpr hc, .inl (State.resolveRead_error_iff.mpr ⟨rfl, hq⟩)⟩
    · exact .inl (State.resolveRead_error_iff.mpr ⟨rfl, h.resolve_right hq⟩)
  · exact .inl (State.resolveRead_error_iff.mpr ⟨rfl, hp⟩)

end

/-- A word is 0 exactly when its value is (rule R4). -/
theorem toInt_eq_zero_iff {w : Word} : w.toInt = 0 ↔ w = 0 := by
  rw [← BitVec.toInt_inj]
  rfl

/-- JT is the jump taken on a condition other than 0 (rule R95). -/
theorem exec_jt (p q : Param) (s : State) : exec (.jt p q) s = execJump (fun c => c != 0) p q s := rfl

/-- JF is the jump taken on the condition 0 (rule R96). -/
theorem exec_jf (p q : Param) (s : State) : exec (.jf p q) s = execJump (fun c => c == 0) p q s := rfl

/-- Settles O21: a jump with both parameters readable, taken when the condition is not 0. -/
theorem jumpIfTrueSetsIp : Obligations.JumpIfTrueSetsIp := by
  unfold Obligations.JumpIfTrueSetsIp
  intro s p q c a hc ha
  rw [exec_jt, execJump_completes hc ha]
  simp [toInt_eq_zero_iff]

/-- Settles O22: a jump with both parameters readable, taken when the condition is 0. -/
theorem jumpIfFalseSetsIp : Obligations.JumpIfFalseSetsIp := by
  unfold Obligations.JumpIfFalseSetsIp
  intro s p q c a hc ha
  rw [exec_jf, execJump_completes hc ha]
  simp [toInt_eq_zero_iff]

/-- Settles O23: the fault of either parameter, for both jumps. -/
theorem jumpOperandFaults : Obligations.JumpOperandFaults := by
  unfold Obligations.JumpOperandFaults
  intro s p q h
  exact ⟨execJump_outOfRange h, execJump_outOfRange h⟩

/-- A taken jump stores the value of its target in `IP` and changes nothing else (rule R97). -/
theorem exec_of_takesJump {i : Instr} {s : State} {q : Param} {a : Word} (hi : TakesJump s i q) (ha : ReadsAs s q a) :
    exec i s = .next ((s.jumpTo a).latch .running) := by
  obtain ⟨p, c, hc, ⟨rfl, h0⟩ | ⟨rfl, h0⟩⟩ := hi
  · rw [exec_jt, execJump_completes hc ha, if_pos (by simpa using h0)]
    rfl
  · rw [exec_jf, execJump_completes hc ha, if_pos (by simpa using h0)]
    rfl

/-- A step with `IP` outside memory raises `MemoryOverflow` (rules R61 step 1, R131). -/
theorem stepFaultsWith_memoryOverflow_of_invalid {s : State} (hs : s.terminal = false)
    (h : s.ip.toInt < 0 ∨ (s.mem.len : Int) ≤ s.ip.toInt) : StepFaultsWith s .memoryOverflow :=
  (memoryOverflowExactlyWhen s hs).mpr (h.imp_right .inl)

/-- Settles O24: the taken jump stores its target as it is, and the next fetch finds no word there. -/
theorem jumpOutsideMemoryFaultsAtTheNextFetch : Obligations.JumpOutsideMemoryFaultsAtTheNextFetch := by
  unfold Obligations.JumpOutsideMemoryFaultsAtTheNextFetch
  intro s i p q c a hs hd hi hc ha hout
  refine ⟨_, (step_of_decode_ok hs hd).trans (exec_of_takesJump ⟨p, c, hc, hi⟩ ha), rfl, ?_⟩
  exact stepFaultsWith_memoryOverflow_of_invalid rfl hout

section
variable {s : State} {p : Param}

/-- ARB with its source readable and the sum accepted completes (rule R100). -/
theorem exec_arb_completes {v : Word} (hv : ReadsAs s p v)
    (hacc : ArithAccepts s.cfg.arithOverflow (s.rb.toInt + v.toInt)) :
    exec (.arb p) s = .next (((s.setRb (wordOf (s.rb.toInt + v.toInt))).advance 2).latch .running) :=
  State.finish_next_iff.mpr <| .inl ⟨_, by
    simp only [except_bind_ok_iff]
    exact ⟨v, State.resolveRead_ok_iff.mpr hv, _, arith_ok_iff.mpr ⟨hacc, rfl⟩, rfl⟩, rfl⟩

theorem exec_arb_outOfRange (h : OutOfRange s p) : exec (.arb p) s = .next (s.takeFault .invalidAddress) :=
  State.finish_next_iff.mpr <| .inr
    ⟨_, except_bind_error_iff.mpr (.inl (State.resolveRead_error_iff.mpr ⟨rfl, h⟩)), rfl⟩

theorem exec_arb_overflows {v : Word} (hv : ReadsAs s p v) (hp : s.cfg.arithOverflow = .fault)
    (hfit : ¬ FitsWord (s.rb.toInt + v.toInt)) : exec (.arb p) s = .next (s.takeFault .arithmeticOverflow) :=
  State.finish_next_iff.mpr <| .inr ⟨_, by
    simp only [except_bind_error_iff]
    exact .inr ⟨v, State.resolveRead_ok_iff.mpr hv, .inl (arith_error_iff.mpr ⟨rfl, hp, hfit⟩)⟩, rfl⟩

end

/-- The low 64 bits of the exact sum of two words are their sum as vectors (rule R85). -/
theorem wordOf_add_toInt (x y : Word) : wordOf (x.toInt + y.toInt) = x + y := by
  rw [wordOf, BitVec.ofInt_add, BitVec.ofInt_toInt, BitVec.ofInt_toInt]

/-- Settles O25: the sum is accepted because it fits, and its word has its value. -/
theorem adjustRelativeBaseAddsToRb : Obligations.AdjustRelativeBaseAddsToRb := by
  unfold Obligations.AdjustRelativeBaseAddsToRb
  intro s p v hv hfit
  exact ⟨_, exec_arb_completes hv (.inl hfit), rfl, toInt_wordOf hfit⟩

/-- Settles O26: ARB's two faults, and its completion with a sum that wraps. -/
theorem adjustRelativeBaseFaultsOrWraps : Obligations.AdjustRelativeBaseFaultsOrWraps := by
  unfold Obligations.AdjustRelativeBaseFaultsOrWraps
  intro s p
  refine ⟨exec_arb_outOfRange, fun v hv hfit => ⟨fun hfault => exec_arb_overflows hv hfault hfit, fun hwrap => ?_⟩⟩
  rw [← wordOf_add_toInt s.rb v]
  exact exec_arb_completes hv (.inr hwrap)

end Sys2Proof.Machine
end

section
/-! PROOFS. The frame of a step (spec/10_state.md rules R10 to R15): what a step may do to each piece of state but `IP` and
`STATUS`, said once, and the obligations that read it off. -/

namespace Sys2Proof.Machine

/-- What a step from `s` to `t` may have done to the queue, the policies, memory, `RB`, the log and the cursor. -/
structure StepFrame (s t : State) : Prop where
  inq : t.inq = s.inq
  cfg : t.cfg = s.cfg
  mem : t.mem = s.mem ∨
    ∃ i p d v, s.decode = .ok i ∧ i.writeTarget = some p ∧ NamesCell s p d ∧ t.mem = s.mem.write d v
  rb : t.rb = s.rb ∨ ∃ p, s.decode = .ok (.arb p)
  out : t.out = s.out ∨ ∃ p v, s.decode = .ok (.out p) ∧ ReadsAs s p v ∧ t.out = s.out ++ [v]
  cur : t.cur = s.cur ∨
    (t.cur = s.cur + 1 ∧ s.cur < s.inq.length ∧ t.status = .running ∧ ∃ dst, s.decode = .ok (.inp dst))

theorem StepFrame.latch (s : State) (st : Status) : StepFrame s (s.latch st) :=
  ⟨rfl, rfl, .inl rfl, .inl rfl, .inl rfl, .inl rfl⟩

/-- The frame of each end of an instruction: a completed one changes the one piece of state that is its own, a suspended
or faulted one nothing (rules R38, R90, R91, R100, R137). -/
theorem exec_frame {i : Instr} {s t : State} (hd : s.decode = .ok i) (h : exec i s = .next t) : StepFrame s t := by
  rcases exec_next_cases h with ⟨p1, p2, p3, a, b, v, d, hi, _, _, hn, rfl⟩ | ⟨p, v, d, rfl, hv, hn, rfl⟩ |
    ⟨p, v, rfl, hv, rfl⟩ | ⟨_, _, _, _, _, _, _, ⟨_, rfl⟩ | ⟨_, rfl⟩⟩ | ⟨p, v, rfl, _, rfl⟩ | ⟨_, rfl⟩ |
    ⟨_, _, _, rfl⟩ | ⟨r, rfl, _⟩
  · have hw : i.writeTarget = some p3 := by rcases hi with rfl | rfl | rfl | rfl <;> rfl
    exact ⟨rfl, rfl, .inr ⟨i, p3, d, v, hd, hw, hn, rfl⟩, .inl rfl, .inl rfl, .inl rfl⟩
  · have hcur := State.exists_nextInput_iff.mp ⟨v, hv⟩
    exact ⟨rfl, rfl, .inr ⟨_, p, d, v, hd, rfl, hn, rfl⟩, .inl rfl, .inl rfl, .inr ⟨rfl, hcur, rfl, p, hd⟩⟩
  · exact ⟨rfl, rfl, .inl rfl, .inl rfl, .inr ⟨p, v, hd, hv, rfl⟩, .inl rfl⟩
  · exact ⟨rfl, rfl, .inl rfl, .inl rfl, .inl rfl, .inl rfl⟩
  · exact ⟨rfl, rfl, .inl rfl, .inl rfl, .inl rfl, .inl rfl⟩
  · exact ⟨rfl, rfl, .inl rfl, .inr ⟨p, hd⟩, .inl rfl, .inl rfl⟩
  · exact ⟨rfl, rfl, .inl rfl, .inl rfl, .inl rfl, .inl rfl⟩
  · exact StepFrame.latch s _
  · exact StepFrame.latch s _

/-- The frame of a step: a terminal state and a fault of the decoder change nothing of it (rules R115, R137). -/
theorem step_frame {s t : State} (h : step s = .next t) : StepFrame s t := by
  rcases step_next_iff.mp h with ⟨_, rfl⟩ | ⟨_, r, _, rfl⟩ | ⟨_, i, hd, hi⟩
  · exact StepFrame.latch t t.status
  · exact StepFrame.latch s _
  · exact exec_frame hd hi

/-- A step keeps the length of memory (rule R11). -/
theorem step_mem_len {s t : State} (h : step s = .next t) : t.mem.len = s.mem.len := by
  rcases (step_frame h).mem with hm | ⟨_, _, d, v, _, _, _, hm⟩
  · rw [hm]
  · rw [hm, Memory.len_write]

/-- Settles O29: memory is as it was or has one write at the cell the target names. -/
theorem onlyTheNamedCellChanges : Obligations.OnlyTheNamedCellChanges := by
  unfold Obligations.OnlyTheNamedCellChanges
  intro s t h
  refine ⟨step_mem_len h, fun n hne => ?_⟩
  rcases (step_frame h).mem with hm | ⟨i, p, d, v, hd, hw, hn, hm⟩
  · exact absurd (by rw [hm]) hne
  · obtain rfl : n = d := by
      by_contra hnd
      exact hne (by rw [hm, Memory.word_write_other s.mem v hnd])
    exact ⟨i, p, hd, hw, hn⟩

/-- Settles O36: the frame of a step, and that a push and a drain do not name `RB`. -/
theorem onlyArbChangesRb : Obligations.OnlyArbChangesRb := by
  unfold Obligations.OnlyArbChangesRb
  refine ⟨fun s t h hne => (step_frame h).rb.resolve_left hne, fun s o hne => ?_⟩
  cases o with
  | step => rfl
  | pushInput v => exact absurd rfl hne
  | drainOutput => exact absurd rfl hne

/-- Settles O37: the frame of a step. -/
theorem outputLogOnlyGrowsByOut : Obligations.OutputLogOnlyGrowsByOut := by
  unfold Obligations.OutputLogOnlyGrowsByOut
  exact fun s t h => (step_frame h).out

/-- Settles O38: the frame of a step. -/
theorem stepKeepsQueueLengthAndPolicies : Obligations.StepKeepsQueueLengthAndPolicies := by
  unfold Obligations.StepKeepsQueueLengthAndPolicies
  exact fun s t h => ⟨(step_frame h).inq, step_mem_len h, (step_frame h).cfg, (step_frame h).cur⟩

end Sys2Proof.Machine
end

section
/-! PROOFS. The transitions of the state machine (spec/45_engine_operations.md rules R114, R115; spec/60_exceptions.md
rules R135 to R137): the status an instruction leaves, said once with what each status means for the rest of the state,
`IP` by the outcome (spec/10_state.md rule R12), and the obligations that read them off. -/

namespace Sys2Proof.Machine

/-- A parameter that names a cell is not Immediate (rule R34). -/
theorem NamesCell.mode_ne_immediate {s : State} {p : Param} {n : Nat} (h : NamesCell s p n) : p.mode ≠ .immediate := by
  obtain ⟨ha, _⟩ := h
  intro hm
  simp [State.effectiveAddress, hm] at ha

/-- An instruction whose write target names a cell is well formed (rule R20(c)). -/
theorem wellFormed_of_namesCell {s : State} {i : Instr} {p : Param} {n : Nat} (hi : i.writeTarget = some p)
    (h : NamesCell s p n) : i.wellFormed = true := by
  simp [Instr.wellFormed, hi, h.mode_ne_immediate]

/-- An instruction completes as a well-formed one, suspends at an IN on the empty queue, halts, or takes a fault of its own
(rule R114). -/
theorem exec_transition {i : Instr} {s t : State} (h : exec i s = .next t) :
    (t.status = .running ∧ i ≠ .halt ∧ i.wellFormed = true ∧ ∀ dst, i = .inp dst → s.cur < s.inq.length) ∨
    ((∃ dst, i = .inp dst) ∧ s.inq.length ≤ s.cur ∧ t = s.latch .waitingForInput) ∨
    (i = .halt ∧ t = (s.advance 1).latch (.halted (s.mem.word 0))) ∨
    ∃ r, t = s.takeFault r ∧
      (r = .invalidAddress ∨ (r = .immediateWriteTarget ∧ i.wellFormed = false ∧ ReachesWriteTarget s i) ∨
        (r = .arithmeticOverflow ∧ s.cfg.arithOverflow = .fault ∧
          (i.opcode = .add ∨ i.opcode = .mul ∨ i.opcode = .arb))) := by
  rcases exec_next_cases h with ⟨p1, p2, p3, _, _, _, _, hi, _, _, hn, rfl⟩ | ⟨p, v, d, rfl, hv, hn, rfl⟩ |
    ⟨_, _, rfl, _, rfl⟩ | ⟨_, _, _, _, hi, _, _, ht⟩ | ⟨_, _, rfl, _, rfl⟩ | hhalt | ⟨p, rfl, hempty, rfl⟩ | hfault
  · left
    rcases hi with rfl | rfl | rfl | rfl <;>
      exact ⟨rfl, by simp, wellFormed_of_namesCell rfl hn, by simp⟩
  · exact .inl ⟨rfl, by simp, wellFormed_of_namesCell rfl hn, fun _ _ => State.exists_nextInput_iff.mp ⟨v, hv⟩⟩
  · exact .inl ⟨rfl, by simp, rfl, by simp⟩
  · have hrun : t.status = .running := by rcases ht with ⟨_, rfl⟩ | ⟨_, rfl⟩ <;> rfl
    left
    rcases hi with rfl | rfl <;> exact ⟨hrun, by simp, rfl, by simp⟩
  · exact .inl ⟨rfl, by simp, rfl, by simp⟩
  · exact .inr (.inr (.inl hhalt))
  · exact .inr (.inl ⟨⟨p, rfl⟩, State.nextInput_eq_none_iff.mp hempty, rfl⟩)
  · exact .inr (.inr (.inr hfault))

/-- A step of a non-terminal state takes the decoder's fault or is the decoded instruction (rule R110). -/
theorem step_next_of_not_terminal {s t : State} (hs : s.terminal = false) (h : step s = .next t) :
    (∃ r, s.decode = .error r ∧ t = s.takeFault r) ∨ ∃ i, s.decode = .ok i ∧ exec i s = .next t := by
  rcases step_next_iff.mp h with ⟨hs', _⟩ | ⟨_, hr⟩ | ⟨_, hi⟩
  · simp [hs] at hs'
  · exact .inl hr
  · exact .inr hi

/-- A step of a terminal state changes nothing (rule R115). -/
theorem step_of_terminal {s : State} (hs : s.terminal = true) : step s = .next s :=
  step_next_iff.mpr (.inl ⟨hs, rfl⟩)

theorem eq_of_step_of_terminal {s t : State} (hs : s.terminal = true) (h : step s = .next t) : s = t := by
  rw [step_of_terminal hs] at h
  injection h

/-- Settles O30: the ends of the decoded instruction, and a fault of the decoder, which is a fault like any other. -/
theorem stepMakesOneOfTheFourTransitions : Obligations.StepMakesOneOfTheFourTransitions := by
  unfold Obligations.StepMakesOneOfTheFourTransitions
  intro s t hs h
  rcases step_next_of_not_terminal hs h with ⟨r, _, rfl⟩ | ⟨i, hd, hi⟩
  · exact .inr (.inr (.inr ⟨r, rfl⟩))
  · rcases exec_transition hi with ⟨hrun, hne, _, hin⟩ | ⟨⟨dst, rfl⟩, hempty, rfl⟩ | ⟨rfl, rfl⟩ | ⟨r, rfl, _⟩
    · exact .inl ⟨hrun, i, hd, hne, hin⟩
    · exact .inr (.inl ⟨⟨dst, hd⟩, hempty, rfl⟩)
    · exact .inr (.inr (.inl ⟨hd, rfl⟩))
    · exact .inr (.inr (.inr ⟨r, rfl⟩))

/-- Settles O31: a halted and a faulted state are the terminal ones. -/
theorem terminalStatesAreFixed : Obligations.TerminalStatesAreFixed := by
  unfold Obligations.TerminalStatesAreFixed
  exact fun s h => step_of_terminal (State.terminal_eq_true_iff.mpr h)

/-- Settles O33: of the four transitions only the fault leaves `Faulted`; a terminal state is left as it is. -/
theorem faultingStepChangesOnlyStatus : Obligations.FaultingStepChangesOnlyStatus := by
  unfold Obligations.FaultingStepChangesOnlyStatus
  intro s t r h ht
  cases hs : s.terminal with
  | true =>
    obtain rfl := eq_of_step_of_terminal hs h
    rw [← ht]
  | false =>
    rcases stepMakesOneOfTheFourTransitions s t hs h with ⟨hrun, _⟩ | ⟨_, _, rfl⟩ | ⟨_, rfl⟩ | ⟨r', rfl⟩
    · simp [hrun] at ht
    · cases ht
    · cases ht
    · obtain rfl : r' = r := Status.faulted.inj ht
      rfl

/-- Of the four transitions only HALT leaves `Halted`, with the word at address 0 (rules R103, R104). -/
theorem step_halted_cases {s t : State} {v : Word} (hs : s.terminal = false) (h : step s = .next t)
    (ht : t.status = .halted v) : s.decode = .ok .halt ∧ v = s.mem.word 0 ∧ t.mem = s.mem := by
  rcases stepMakesOneOfTheFourTransitions s t hs h with ⟨hrun, _⟩ | ⟨_, _, rfl⟩ | ⟨hd, rfl⟩ | ⟨r', rfl⟩
  · simp [hrun] at ht
  · cases ht
  · exact ⟨hd, (Status.halted.inj ht).symm, rfl⟩
  · cases ht

/-- Settles O35: HALT is the one transition to `Halted`. -/
theorem onlyHaltHalts : Obligations.OnlyHaltHalts := by
  unfold Obligations.OnlyHaltHalts
  intro s t v hs h ht
  obtain ⟨hd, hv, _⟩ := step_halted_cases hs h ht
  exact ⟨hd, hv⟩

/-- Settles O41: the decoder has no such fault, and among the instructions it is the overflow rule's. -/
theorem arithmeticOverflowOnlyFromArithmetic : Obligations.ArithmeticOverflowOnlyFromArithmetic := by
  unfold Obligations.ArithmeticOverflowOnlyFromArithmetic
  intro s t hs h ht
  rcases step_next_of_not_terminal hs h with ⟨r, hd, rfl⟩ | ⟨i, hd, hi⟩
  · obtain rfl : r = .arithmeticOverflow := Status.faulted.inj ht
    simpa using State.decode_error hd
  · rcases exec_transition hi with ⟨hrun, _⟩ | ⟨_, _, rfl⟩ | ⟨_, rfl⟩ | ⟨r, rfl, hr⟩
    · simp [hrun] at ht
    · cases ht
    · cases ht
    · obtain rfl : r = .arithmeticOverflow := Status.faulted.inj ht
      obtain ⟨_, hp, hop⟩ := (hr.resolve_left (by simp)).resolve_left (by simp)
      exact ⟨hp, i, hd, hop⟩

/-- An instruction that is not well formed and comes as far as its write target raises `ImmediateWriteTarget` (rule R135). -/
theorem exec_immediate_target {i : Instr} {s : State} (hw : i.wellFormed = false) (hr : ReachesWriteTarget s i) :
    exec i s = .next (s.takeFault .immediateWriteTarget) := by
  cases i with
  | add p1 p2 p3 | mul p1 p2 p3 =>
    obtain ⟨a, b, h1, h2, hacc⟩ := hr
    exact execF3_immediate_target h1 h2 (arith_ok_iff.mpr ⟨hacc, rfl⟩)
      (by simpa [Instr.wellFormed, Instr.writeTarget] using hw)
  | lt p1 p2 p3 | eq p1 p2 p3 =>
    obtain ⟨a, b, h1, h2⟩ := hr
    exact execF3_immediate_target h1 h2 rfl (by simpa [Instr.wellFormed, Instr.writeTarget] using hw)
  | inp p =>
    obtain ⟨v, hv⟩ := State.exists_nextInput_iff.mpr hr
    exact exec_inp_faults hv (.inl ⟨rfl, by simpa [Instr.wellFormed, Instr.writeTarget] using hw⟩)
  | out | jt | jf | arb | halt => cases hr

/-- Settles O40: the transitions one way, the fault of an Immediate target the other; only a well-formed instruction
completes. -/
theorem immediateWriteTargetExactlyWhenReached : Obligations.ImmediateWriteTargetExactlyWhenReached := by
  unfold Obligations.ImmediateWriteTargetExactlyWhenReached
  intro i s t h
  refine ⟨⟨fun ht => ?_, fun ⟨hw, hr⟩ => ?_⟩, fun hw => ?_⟩
  · rcases exec_transition h with ⟨hrun, _⟩ | ⟨_, _, rfl⟩ | ⟨_, rfl⟩ | ⟨r, rfl, hr⟩
    · simp [hrun] at ht
    · cases ht
    · cases ht
    · obtain rfl : r = .immediateWriteTarget := Status.faulted.inj ht
      simpa using hr
  · obtain rfl : s.takeFault .immediateWriteTarget = t := by simpa [exec_immediate_target hw hr] using h
    rfl
  · rcases exec_transition h with ⟨_, _, hwf, _⟩ | ⟨_, _, rfl⟩ | ⟨rfl, _⟩ | ⟨r, rfl, _⟩
    · simp [hw] at hwf
    · exact .inl rfl
    · cases hw
    · exact .inr ⟨r, rfl⟩

/-- Only JT and JF are jumps (rules R95, R96). -/
theorem not_takesJump {s : State} {i : Instr} (hi : i.opcode ≠ .jt ∧ i.opcode ≠ .jf) (q : Param) :
    ¬ TakesJump s i q := by
  rintro ⟨_, _, _, ⟨rfl, _⟩ | ⟨rfl, _⟩⟩
  · exact hi.1 rfl
  · exact hi.2 rfl

/-- `IP` after an instruction: the value of the target of a taken jump, the old `IP` and the size, or, where the
instruction suspends or faults, the old `IP` (rule R12). -/
theorem exec_ip {i : Instr} {s t : State} (h : exec i s = .next t) :
    (∃ q, TakesJump s i q ∧ ReadsAs s q t.ip) ∨
    ((∀ q, ¬ TakesJump s i q) ∧ t.ip = s.ip + BitVec.ofNat 64 i.size) ∨
    ∃ st, t = s.latch st ∧ (st = .waitingForInput ∨ ∃ r, st = .faulted r) := by
  rcases exec_next_cases h with ⟨_, _, _, _, _, _, _, hi, _, _, _, rfl⟩ | ⟨_, _, _, rfl, _, _, rfl⟩ | ⟨_, _, rfl, _, rfl⟩ |
    ⟨_, q, _, _, hi, _, ha, ⟨hj, rfl⟩ | ⟨hj, rfl⟩⟩ | ⟨_, _, rfl, _, rfl⟩ | ⟨rfl, rfl⟩ | ⟨_, _, _, rfl⟩ | ⟨r, rfl, _⟩
  · right; left
    rcases hi with rfl | rfl | rfl | rfl <;> exact ⟨not_takesJump ⟨nofun, nofun⟩, rfl⟩
  · exact .inr (.inl ⟨not_takesJump ⟨nofun, nofun⟩, rfl⟩)
  · exact .inr (.inl ⟨not_takesJump ⟨nofun, nofun⟩, rfl⟩)
  · exact .inl ⟨q, hj, ha⟩
  · right; left
    rcases hi with rfl | rfl <;> exact ⟨hj, rfl⟩
  · exact .inr (.inl ⟨not_takesJump ⟨nofun, nofun⟩, rfl⟩)
  · exact .inr (.inl ⟨not_takesJump ⟨nofun, nofun⟩, rfl⟩)
  · exact .inr (.inr ⟨_, rfl, .inl rfl⟩)
  · exact .inr (.inr ⟨_, rfl, .inr ⟨r, rfl⟩⟩)

/-- Within the bound on memory no size added to the `IP` of a decoded instruction overflows (rules R4, R12). -/
theorem State.toInt_ip_add_size {s : State} {i : Instr} (hlen : s.mem.len ≤ maxMemLen) (hd : s.decode = .ok i) :
    (s.ip + BitVec.ofNat 64 i.size).toInt = s.ip.toInt + i.size := by
  obtain ⟨n, _, _, hip, hn, _⟩ := State.decode_ok_cases hd
  have hle := i.opcode.operandCount_le
  have hsize : (BitVec.ofNat 64 i.size).toInt = i.size := by
    rw [BitVec.toInt_ofNat', Int.bmod_eq_of_le] <;> unfold Instr.size <;> omega
  unfold maxMemLen at hlen
  rw [BitVec.toInt_add, hsize, Int.bmod_eq_of_le] <;> unfold Instr.size <;> omega

/-- Settles O39: `IP` by the outcome, and no overflow of the sum within the bound on memory. -/
theorem ipAdvancesByTheSize : Obligations.IpAdvancesByTheSize := by
  unfold Obligations.IpAdvancesByTheSize
  intro s t i hlen hs hd h
  rw [step_of_decode_ok hs hd] at h
  constructor
  · intro hst
    rcases exec_transition h with ⟨hrun, _⟩ | ⟨_, _, rfl⟩ | ⟨_, rfl⟩ | ⟨r, rfl, _⟩
    · simp [hrun] at hst
    · rfl
    · simp at hst
    · rfl
  · intro hst
    rcases exec_ip h with hjump | ⟨hno, hip⟩ | ⟨st, rfl, hst'⟩
    · exact .inl hjump
    · exact .inr ⟨hno, by rw [hip, State.toInt_ip_add_size hlen hd]⟩
    · rcases hst' with rfl | ⟨r, rfl⟩ <;> simp at hst

end Sys2Proof.Machine
end

section
/-! PROOFS. The invariant of the machine (spec/10_state.md rules R11, R14, R16; spec/44_halt.md rule R103): every step keeps
it, every state `new` makes meets it, and so does every state the host's operations reach from one; and that a waiting
state has an IN at `IP` (spec/45_engine_operations.md rule R116). -/

namespace Sys2Proof.Machine

/-- A step keeps memory in canonical form: its one write is at a cell inside memory (rules R11, R38). -/
theorem step_mem_wf {s t : State} (hwf : s.mem.wf) (h : step s = .next t) : t.mem.wf := by
  rcases (step_frame h).mem with hm | ⟨_, _, d, v, _, _, ⟨_, hd⟩, hm⟩
  · rwa [hm]
  · rw [hm]
    exact Memory.wf_write hwf hd v

/-- A step keeps the cursor inside the queue: it moves only where a value is unread (rule R14). -/
theorem step_cur_le {s t : State} (hcur : s.cur ≤ s.inq.length) (h : step s = .next t) : t.cur ≤ t.inq.length := by
  rw [(step_frame h).inq]
  rcases (step_frame h).cur with hc | ⟨hc, hlt, _⟩ <;> omega

/-- Settles O43: the frame of a step for memory and the cursor, the transitions for the two latched statuses. -/
theorem stepKeepsTheInvariant : Obligations.StepKeepsTheInvariant := by
  unfold Obligations.StepKeepsTheInvariant
  intro s t hinv h
  cases hs : s.terminal with
  | true =>
    obtain rfl := eq_of_step_of_terminal hs h
    exact hinv
  | false =>
    exact {
      mem_wf := step_mem_wf hinv.mem_wf h
      len_le := (step_mem_len h).trans_le hinv.len_le
      cur_le := step_cur_le hinv.cur_le h
      overflow_policy := fun ht => by
        rw [(step_frame h).cfg]
        exact (arithmeticOverflowOnlyFromArithmetic s t hs h ht).1
      halted_cell := fun v ht => by
        obtain ⟨_, hv, hm⟩ := step_halted_cases hs h ht
        rw [hv, hm] }

/-- The state `new` makes, field by field, where it does not refuse (rules R150, R151). -/
theorem State.new_eq_some_iff {cfg : Config} {program : List Word} {cap : Nat} {s : State} :
    State.new cfg program cap = some s ↔
      max program.length cap ≤ maxMemLen ∧
        s = { mem := ⟨max program.length cap, loadCells 0 program⟩, ip := 0, rb := 0, inq := [], cur := 0, out := [],
              status := .running, cfg := cfg } := by
  unfold State.new
  split
  case isTrue hle => simp [hle, eq_comm]
  case isFalse hgt => simp [hgt]

/-- Every state `new` makes meets the invariant (rule R150). -/
theorem State.inv_of_new {cfg : Config} {program : List Word} {cap : Nat} {s : State}
    (h : State.new cfg program cap = some s) : s.Inv := by
  obtain ⟨hle, rfl⟩ := State.new_eq_some_iff.mp h
  exact State.inv_of_not_terminal rfl (Memory.wf_load program (le_max_left _ _)) hle le_rfl

/-- Settles O44: the reset state is one that `new` makes. -/
theorem resetMeetsTheInvariant : Obligations.ResetMeetsTheInvariant :=
  State.inv_of_new Laws.reset_eq_new

/-- A push lengthens the queue and a drain empties the log; neither touches what the invariant says (rules R112, R113). -/
theorem HostOp.apply_inv {s : State} (o : HostOp) (h : s.Inv) : (o.apply s).Inv := by
  cases o with
  | step => exact stepKeepsTheInvariant s _ h s.step_eq_stepped
  | pushInput v =>
    exact { h with cur_le := by simpa [HostOp.apply] using Nat.le_succ_of_le h.cur_le }
  | drainOutput => exact { h with }

theorem runScript_inv {s : State} (h : s.Inv) (ops : List HostOp) : (runScript ops s).Inv := by
  induction ops generalizing s with
  | nil => exact h
  | cons o os ih => exact ih (HostOp.apply_inv o h)

/-- Settles O45: the invariant holds of what `new` makes and every host operation keeps it. -/
theorem everyInstanceKeepsTheInvariant : Obligations.EveryInstanceKeepsTheInvariant := by
  unfold Obligations.EveryInstanceKeepsTheInvariant
  exact fun _ _ _ _ hnew ops => runScript_inv (State.inv_of_new hnew) ops

/-- Settles O46: a step comes to wait only at an IN and keeps `IP`; a push and a drain change nothing the decoder reads. -/
theorem waitingMeansAnInputAtIp : Obligations.WaitingMeansAnInputAtIp := by
  unfold Obligations.WaitingMeansAnInputAtIp
  intro s o hinput hwait
  cases o with
  | step =>
    obtain ⟨dst, hd, _, ht⟩ := step_waiting_cases s.step_eq_stepped hwait
    refine ⟨dst, ?_⟩
    rw [HostOp.apply, ht, State.decode_latch, hd]
  | pushInput v =>
    obtain ⟨dst, hd⟩ := hinput hwait
    exact ⟨dst, (s.decode_pushInput v).trans hd⟩
  | drainOutput =>
    obtain ⟨dst, hd⟩ := hinput hwait
    exact ⟨dst, (State.decode_congr rfl rfl rfl).trans hd⟩

end Sys2Proof.Machine
end

section
/-! PROOFS. What an instruction does not look at. A change of state that commutes with every update of an instruction, and
that its operand resolution does not see, may be made before or after it. The status, the unread part of the queue, the
log and, without a Relative parameter, `RB` are changed so (spec/45_engine_operations.md rules R112 to R114;
spec/41_input_output.md rule R92; spec/43_relative_base.md rule R101). -/

namespace Sys2Proof.Machine

/-- The change `g` before an instruction's updates is the change `h` after the status is latched, and `g` leaves memory and
the policies alone. -/
structure Unseen (g h : State → State) : Prop where
  mem : ∀ u, (g u).mem = u.mem
  cfg : ∀ u, (g u).cfg = u.cfg
  latch : ∀ u st, (g u).latch st = h (u.latch st)
  advance : ∀ u n, (g u).advance n = g (u.advance n)
  jumpTo : ∀ u w, (g u).jumpTo w = g (u.jumpTo w)
  writeMem : ∀ u a w, (g u).writeMem a w = g (u.writeMem a w)
  appendOut : ∀ u w, (g u).appendOut w = g (u.appendOut w)
  consumeInput : ∀ u, (g u).consumeInput = g u.consumeInput

section
variable {g h : State → State} (hg : Unseen g h) {s t : State}
include hg

/-- The end of a step commutes with an unseen change: on success by the latch of `Running`, on a fault by its own. -/
theorem Unseen.finish_next {r : Except Fault State} (he : s.finish r = .next t) : (g s).finish (g <$> r) = .next (h t) := by
  rcases State.finish_next_iff.mp he with ⟨u, rfl, rfl⟩ | ⟨e, rfl, rfl⟩
  · exact congrArg Host.Outcome.next (hg.latch u _)
  · exact congrArg Host.Outcome.next (hg.latch s _)

theorem Unseen.execF3_next {f : Word → Word → Except Fault Word} {p1 p2 p3 : Param}
    (h1 : (g s).resolveRead p1 = s.resolveRead p1) (h2 : (g s).resolveRead p2 = s.resolveRead p2)
    (h3 : (g s).resolveWriteAddress p3 = s.resolveWriteAddress p3) (he : execF3 f p1 p2 p3 s = .next t) :
    execF3 f p1 p2 p3 (g s) = .next (h t) := by
  simpa only [execF3, h1, h2, h3, hg.writeMem, hg.advance, map_bind, map_pure] using hg.finish_next he

theorem Unseen.execJump_next {taken : Word → Bool} {p q : Param} (h1 : (g s).resolveRead p = s.resolveRead p)
    (h2 : (g s).resolveRead q = s.resolveRead q) (he : execJump taken p q s = .next t) :
    execJump taken p q (g s) = .next (h t) := by
  simpa only [execJump, h1, h2, hg.jumpTo, hg.advance, ← apply_ite g, map_bind, map_pure] using hg.finish_next he

/-- An instruction whose operands resolve alike, whose queue has the same next value and whose update of `RB`, if it is
ARB, commutes with the change, does the same. -/
theorem Unseen.exec_next {i : Instr} (hread : ∀ p ∈ i.params, (g s).resolveRead p = s.resolveRead p)
    (hwrite : ∀ p ∈ i.params, (g s).resolveWriteAddress p = s.resolveWriteAddress p)
    (hin : ∀ dst, i = .inp dst → (g s).nextInput = s.nextInput)
    (harb : i.opcode = .arb → (g s).rb = s.rb ∧ ∀ u w, (g u).setRb w = g (u.setRb w)) (he : exec i s = .next t) :
    exec i (g s) = .next (h t) := by
  cases i with
  | add p1 p2 p3 | mul p1 p2 p3 =>
    simp only [exec_add, exec_mul, hg.cfg] at he ⊢
    exact hg.execF3_next (hread p1 (by simp [Instr.params])) (hread p2 (by simp [Instr.params]))
      (hwrite p3 (by simp [Instr.params])) he
  | lt p1 p2 p3 | eq p1 p2 p3 =>
    exact hg.execF3_next (hread p1 (by simp [Instr.params])) (hread p2 (by simp [Instr.params]))
      (hwrite p3 (by simp [Instr.params])) he
  | jt p q | jf p q =>
    exact hg.execJump_next (hread p (by simp [Instr.params])) (hread q (by simp [Instr.params])) he
  | inp p =>
    have hnext := hin p rfl
    cases hv : s.nextInput with
    | none =>
      rw [exec_inp_of_empty p hv] at he
      rw [exec_inp_of_empty p (hnext.trans hv), hg.latch]
      injection he with he
      rw [he]
    | some v =>
      rw [exec_inp_of_unread hv] at he
      rw [exec_inp_of_unread (hnext.trans hv)]
      simpa only [hwrite p (by simp [Instr.params]), hg.consumeInput, hg.writeMem, hg.advance, map_bind, map_pure]
        using hg.finish_next he
  | out p =>
    simpa only [exec, execOut, hread p (by simp [Instr.params]), hg.appendOut, hg.advance, map_bind, map_pure]
      using hg.finish_next he
  | arb p =>
    obtain ⟨hrb, hset⟩ := harb rfl
    simpa only [exec, execArb, hread p (by simp [Instr.params]), hg.cfg, hrb, hset, hg.advance, map_bind,
      map_pure] using hg.finish_next he
  | halt =>
    rw [exec_halt] at he
    rw [exec_halt, hg.advance, hg.latch, hg.mem]
    injection he with he
    rw [he]

end

/-- A source operand is resolved from memory and `RB` (rule R33). -/
theorem State.resolveRead_congr {s t : State} (hm : t.mem = s.mem) (hr : t.rb = s.rb) (p : Param) :
    t.resolveRead p = s.resolveRead p := by
  simp only [State.resolveRead, hm, hr]

/-- A destination is resolved from the length of memory and `RB` (rule R34). -/
theorem State.resolveWriteAddress_congr {s t : State} (hm : t.mem = s.mem) (hr : t.rb = s.rb) (p : Param) :
    t.resolveWriteAddress p = s.resolveWriteAddress p := by
  simp only [State.resolveWriteAddress, State.boundedAddress, hm, hr]

/-! ### The status -/

theorem unseen_latch (st : Status) : Unseen (State.latch · st) id :=
  ⟨fun _ => rfl, fun _ => rfl, fun _ _ => rfl, fun _ _ => rfl, fun _ _ => rfl, fun _ _ _ => rfl, fun _ _ => rfl,
    fun _ => rfl⟩

/-- No instruction looks at the status it starts from (rule R114). -/
theorem exec_latch (i : Instr) (s : State) (st : Status) : exec i (s.latch st) = exec i s := by
  obtain ⟨t, ht⟩ := exec_answers_next i s
  rw [ht]
  exact (unseen_latch st).exec_next (fun _ _ => rfl) (fun _ _ => rfl) (fun _ _ => rfl) (fun _ => ⟨rfl, fun _ _ => rfl⟩) ht

/-- A step does the same from every status that is not terminal (rule R114). -/
theorem step_latch {s : State} {st : Status} (hs : s.terminal = false) (hst : (s.latch st).terminal = false) :
    step (s.latch st) = step s := by
  cases hd : s.decode with
  | ok i => rw [step_of_decode_ok hs hd, step_of_decode_ok hst (by rw [State.decode_latch, hd]), exec_latch]
  | error r =>
    rw [step_next_iff.mpr (.inr (.inl ⟨hs, r, hd, rfl⟩)),
      step_next_iff.mpr (.inr (.inl ⟨hst, r, by rw [State.decode_latch, hd], rfl⟩))]
    rfl

/-- Settles O32: the two statuses are not terminal. -/
theorem runningAndWaitingStepAlike : Obligations.RunningAndWaitingStepAlike := by
  unfold Obligations.RunningAndWaitingStepAlike
  exact fun s => step_latch (s := s.latch .waitingForInput) (st := .running) rfl rfl

/-! ### `RB` -/

theorem unseen_setRb (r : Word) : Unseen (State.setRb · r) (State.setRb · r) :=
  ⟨fun _ => rfl, fun _ => rfl, fun _ _ => rfl, fun _ _ => rfl, fun _ _ => rfl, fun _ _ _ => rfl, fun _ _ => rfl,
    fun _ => rfl⟩

/-- Only Relative mode adds `RB` (rule R101). -/
theorem State.resolveRead_setRb {s : State} {p : Param} (r : Word) (h : p.mode ≠ .relative) :
    (s.setRb r).resolveRead p = s.resolveRead p := by
  obtain ⟨value, mode⟩ := p
  cases mode
  case relative => exact absurd rfl h
  all_goals rfl

/-- Only Relative mode adds `RB` (rule R101). -/
theorem State.resolveWriteAddress_setRb {s : State} {p : Param} (r : Word) (h : p.mode ≠ .relative) :
    (s.setRb r).resolveWriteAddress p = s.resolveWriteAddress p := by
  obtain ⟨value, mode⟩ := p
  cases mode
  case relative => exact absurd rfl h
  all_goals rfl

/-- Settles O42: without a Relative parameter `RB` is not seen; with `RB` 0 the Relative address is the Position address. -/
theorem onlyRelativeModeReadsRb : Obligations.OnlyRelativeModeReadsRb := by
  unfold Obligations.OnlyRelativeModeReadsRb
  refine ⟨fun i s t r hmodes harb h => ?_, fun s v hrb => ?_⟩
  · exact (unseen_setRb r).exec_next (fun p hp => State.resolveRead_setRb r (hmodes p hp))
      (fun p hp => State.resolveWriteAddress_setRb r (hmodes p hp)) (fun _ _ => rfl) (fun hop => absurd hop harb) h
  · simp [State.resolveRead, State.resolveWriteAddress, hrb]

/-! ### The queue and the log -/

/-- An unseen change that the fetch does not see either and that may be made before or after the whole step. -/
structure UnseenByStep (g : State → State) : Prop extends Unseen g g where
  ip : ∀ u, (g u).ip = u.ip
  rb : ∀ u, (g u).rb = u.rb
  status : ∀ u, (g u).status = u.status
  setRb : ∀ u w, (g u).setRb w = g (u.setRb w)

/-- A step commutes with such a change where an IN finds the same next value (rules R110, R115). -/
theorem UnseenByStep.step_next {g : State → State} (hg : UnseenByStep g) {s t : State}
    (hin : ∀ dst, s.decode = .ok (.inp dst) → (g s).nextInput = s.nextInput) (h : step s = .next t) :
    step (g s) = .next (g t) := by
  have hterm : (g s).terminal = s.terminal := by simp only [State.terminal, hg.status]
  have hdec : (g s).decode = s.decode := State.decode_congr (hg.mem s) (hg.ip s) (hg.cfg s)
  rcases step_next_iff.mp h with ⟨hs, rfl⟩ | ⟨hs, r, hd, rfl⟩ | ⟨hs, i, hd, hi⟩
  · exact step_of_terminal (hterm.trans hs)
  · exact step_next_iff.mpr (.inr (.inl ⟨hterm.trans hs, r, hdec.trans hd, (hg.latch s _).symm⟩))
  · rw [step_of_decode_ok (hterm.trans hs) (hdec.trans hd)]
    exact hg.exec_next (fun p _ => State.resolveRead_congr (hg.mem s) (hg.rb s) p)
      (fun p _ => State.resolveWriteAddress_congr (hg.mem s) (hg.rb s) p) (fun dst hi => hin dst (hi ▸ hd))
      (fun _ => ⟨hg.rb s, hg.setRb⟩) hi

theorem unseenByStep_pushInput (v : Word) : UnseenByStep (State.pushInput · v) :=
  ⟨⟨fun _ => rfl, fun _ => rfl, fun _ _ => rfl, fun _ _ => rfl, fun _ _ => rfl, fun _ _ _ => rfl, fun _ _ => rfl,
    fun _ => rfl⟩, fun _ => rfl, fun _ => rfl, fun _ => rfl, fun _ _ => rfl⟩

/-- A pushed value is behind the value at the cursor (rule R112). -/
theorem State.nextInput_pushInput {s : State} {w : Word} (v : Word) (h : s.nextInput = some w) :
    (s.pushInput v).nextInput = some w := by
  obtain ⟨hlt, _⟩ := List.getElem?_eq_some_iff.mp h
  exact (List.getElem?_append_left hlt).trans h

/-- A step at an IN that does not suspend has a value unread (rule R90). -/
theorem exists_nextInput_of_not_waiting {s t : State} {dst : Param} (hs : s.terminal = false)
    (hd : s.decode = .ok (.inp dst)) (h : step s = .next t) (ht : t.status ≠ .waitingForInput) :
    ∃ w, s.nextInput = some w := by
  refine Option.ne_none_iff_exists'.mp fun hnone => ht ?_
  rw [step_of_decode_ok hs hd, exec_inp_of_empty dst hnone] at h
  injection h with h
  rw [← h, State.latch_status]

/-- Settles O47: where the step does not suspend, an IN reads a value that a push does not move. -/
theorem pushCommutesWithAStep : Obligations.PushCommutesWithAStep := by
  unfold Obligations.PushCommutesWithAStep
  intro s t v h ht
  cases hs : s.terminal with
  | true =>
    obtain rfl := eq_of_step_of_terminal hs h
    exact step_of_terminal hs
  | false =>
    refine (unseenByStep_pushInput v).step_next (fun dst hd => ?_) h
    obtain ⟨w, hw⟩ := exists_nextInput_of_not_waiting hs hd h ht
    rw [hw]
    exact State.nextInput_pushInput v hw

/-- Words put in front of the log. -/
def State.prependOut (ws : List Word) (s : State) : State := { s with out := ws ++ s.out }

theorem unseenByStep_prependOut (ws : List Word) : UnseenByStep (State.prependOut ws) :=
  ⟨⟨fun _ => rfl, fun _ => rfl, fun _ _ => rfl, fun _ _ => rfl, fun _ _ => rfl, fun _ _ _ => rfl,
    fun u _ => congrArg (fun ws => { u with out := ws }) (List.append_assoc ..), fun _ => rfl⟩,
    fun _ => rfl, fun _ => rfl, fun _ => rfl, fun _ _ => rfl⟩

/-- The drained log put back in front gives the state before the drain (rule R113). -/
theorem State.prependOut_drainOutput (s : State) : s.drainOutput.2.prependOut s.drainOutput.1 = s :=
  congrArg (fun ws => { s with out := ws }) (List.append_nil _)

/-- Settles O49: the state is the drained one with the log put back in front, before the step or after it. -/
theorem drainingDoesNotChangeTheProgram : Obligations.DrainingDoesNotChangeTheProgram := by
  unfold Obligations.DrainingDoesNotChangeTheProgram
  intro s
  have hstep := (unseenByStep_prependOut s.drainOutput.1).step_next (fun _ _ => rfl) s.drainOutput.2.step_eq_stepped
  rw [s.prependOut_drainOutput] at hstep
  exact State.stepped_eq hstep

end Sys2Proof.Machine
end

section
/-! PROOFS. Suspend and resume (spec/41_input_output.md rule R92(b)): input pushed first leads to the same end as input
pushed along the way. -/

namespace Sys2Proof.Machine

/-- Pushes commute with a step that does not suspend. -/
theorem stepped_pushAll (vs : List Word) {s : State} (h : s.stepped.status ≠ .waitingForInput) :
    (s.pushAll vs).stepped = s.stepped.pushAll vs := by
  induction vs generalizing s with
  | nil => rfl
  | cons v vs ih =>
    have hpush : (s.pushInput v).stepped = s.stepped.pushInput v :=
      State.stepped_eq (pushCommutesWithAStep s _ v s.step_eq_stepped h)
    rw [State.pushAll, ih (by rwa [hpush]), hpush, State.pushAll]

/-- Pushes do not touch the status (rule R112). -/
theorem State.pushAll_latch (vs : List Word) (s : State) (st : Status) :
    (s.latch st).pushAll vs = (s.pushAll vs).latch st := by
  induction vs generalizing s with
  | nil => rfl
  | cons v vs ih => exact ih (s.pushInput v)

theorem State.pushAll_status (vs : List Word) (s : State) : (s.pushAll vs).status = s.status := by
  induction vs generalizing s with
  | nil => rfl
  | cons v vs ih => exact ih (s.pushInput v)

/-- A step that suspends starts from a state that is not terminal (rule R114). -/
theorem not_terminal_of_suspended {s : State} (h : s.stepped.status = .waitingForInput) : s.terminal = false := by
  by_contra hs
  rw [Bool.not_eq_false] at hs
  rw [State.stepped_eq (step_of_terminal hs)] at h
  simp [State.terminal, h] at hs

/-- A step that suspended may be left out: the step after it does the same without it, whatever was pushed (rule R116). -/
theorem stepped_of_suspended {s : State} (vs : List Word) (h : s.stepped.status = .waitingForInput) :
    (s.stepped.pushAll vs).stepped = (s.pushAll vs).stepped := by
  obtain ⟨_, _, _, ht⟩ := step_waiting_cases s.step_eq_stepped h
  have hterm : (s.pushAll vs).terminal = false := by
    simpa only [State.terminal, State.pushAll_status] using not_terminal_of_suspended h
  rw [ht, State.pushAll_latch]
  exact State.stepped_eq ((step_latch hterm rfl).trans (State.step_eq_stepped _))

/-- Settles O48, by induction on the script: a push comes first anyway; a step that does not suspend commutes with the
pushes after it; a step that suspends is left out. -/
theorem preloadedInputGivesTheSameEnd : Obligations.PreloadedInputGivesTheSameEnd := by
  unfold Obligations.PreloadedInputGivesTheSameEnd
  intro s ops hdrain hend
  induction ops generalizing s with
  | nil => exact ⟨0, rfl⟩
  | cons o os ih =>
    have hdrain' : NoDrain os := fun hmem => hdrain (List.mem_cons_of_mem o hmem)
    obtain ⟨n, hn⟩ := ih (o.apply s) hdrain' hend
    cases o with
    | pushInput v => exact ⟨n, hn⟩
    | drainOutput => exact absurd List.mem_cons_self hdrain
    | step =>
      rw [HostOp.apply] at hn
      by_cases hwait : s.stepped.status = .waitingForInput
      · cases n with
        | zero =>
          have hst : (runScript os s.stepped).status = .waitingForInput := by
            rw [← hn, State.stepMany, State.pushAll_status, hwait]
          rw [runScript, HostOp.apply, State.terminal, hst] at hend
          cases hend
        | succ n => exact ⟨n + 1, by rw [pushesOf, State.stepMany, ← stepped_of_suspended _ hwait]; exact hn⟩
      · exact ⟨n + 1, by rw [pushesOf, State.stepMany, stepped_pushAll _ hwait]; exact hn⟩

end Sys2Proof.Machine
end

section
/-! PROOFS. The host's operations (spec/45_engine_operations.md rules R111 to R113; spec/70_reset_and_hazards.md rules R150,
R151, R157): the state `new` makes, the reset state, push and drain, runs with and without a budget. -/

namespace Sys2Proof.Machine

/-- Settles O50: the fields of the state `new` makes; its words are those of a loaded program. -/
theorem newBuildsTheInstance : Obligations.NewBuildsTheInstance := by
  unfold Obligations.NewBuildsTheInstance
  refine fun cfg program cap => ⟨fun hgt => if_neg (by omega), fun hle => ?_⟩
  refine ⟨_, State.new_eq_some_iff.mpr ⟨hle, rfl⟩, rfl, fun k w hk => ?_, fun k hk => ?_, rfl, rfl, rfl, rfl, rfl, rfl, rfl⟩
  · rw [Memory.word_load, hk, Option.getD_some]
  · rw [Memory.word_load, List.getElem?_eq_none hk]
    rfl

/-- Settles O51: the fields of the reset state, which lists no word. -/
theorem resetState : Obligations.ResetState := by
  unfold Obligations.ResetState
  exact ⟨rfl, fun _ => rfl, rfl, rfl, rfl, rfl, rfl, rfl⟩

/-- Settles O52: what a push is. -/
theorem pushInputOnlyAppends : Obligations.PushInputOnlyAppends := by
  unfold Obligations.PushInputOnlyAppends
  exact fun _ _ => rfl

/-- Settles O53: what a drain and a peek are. -/
theorem drainReturnsAndClearsTheLog : Obligations.DrainReturnsAndClearsTheLog := by
  unfold Obligations.DrainReturnsAndClearsTheLog
  exact fun _ => ⟨rfl, rfl⟩

/-- Only `Running` reports `Continue` (rule R16). -/
@[simp] theorem Status.report_eq_continue_iff {st : Status} : st.report = .continue ↔ st = .running := by
  cases st <;> simp [Status.report]

/-- A run goes on after a step that leaves `Running` (rule R111). -/
theorem runBudget_succ_of_running {s : State} (n : Nat) (h : s.stepped.status = .running) :
    runBudget (n + 1) s = runBudget n s.stepped :=
  if_pos (Status.report_eq_continue_iff.mpr h)

/-- A run ends at a step that leaves another status (rule R111). -/
theorem runBudget_succ_of_not_running {s : State} (n : Nat) (h : s.stepped.status ≠ .running) :
    runBudget (n + 1) s = (s.stepped.status.report, s.stepped) :=
  if_neg (by simpa using h)

/-- Settles O54, by induction on the budget: a step that leaves `Running` is one more step in front of the rest of the run,
any other is the last. -/
theorem budgetedRunIsRepeatedSteps : Obligations.BudgetedRunIsRepeatedSteps := by
  unfold Obligations.BudgetedRunIsRepeatedSteps
  intro budget
  induction budget with
  | zero => exact fun s => ⟨0, le_rfl, rfl, rfl, fun j h0 hj => by omega, fun h => by omega⟩
  | succ n ih =>
    intro s
    by_cases hrun : s.stepped.status = .running
    · obtain ⟨k, hk, hstate, hreport, hbefore, hstop⟩ := ih s.stepped
      rw [runBudget_succ_of_running n hrun]
      refine ⟨k + 1, by omega, hstate, hreport, fun j h0 hj => ?_, fun hlt => ⟨by omega, (hstop (by omega)).2⟩⟩
      obtain ⟨j, rfl⟩ := Nat.exists_eq_add_of_lt h0
      rcases Nat.eq_zero_or_pos j with rfl | hpos
      · exact hrun
      · simpa [State.stepMany] using hbefore j hpos (by omega)
    · rw [runBudget_succ_of_not_running n hrun]
      exact ⟨1, by omega, rfl, rfl, fun j h0 hj => by omega, fun _ => ⟨by omega, by simpa using hrun⟩⟩

/-- A state that a step leaves as it is stays as it is. -/
theorem stepMany_of_fixed {s : State} (h : s.stepped = s) (n : Nat) : s.stepMany n = s := by
  induction n with
  | zero => rfl
  | succ n ih => rw [State.stepMany, h, ih]

/-- A run with a budget above 0 that makes only steps that leave `Running` reports `Continue` (rule R111). -/
theorem runBudget_continue {s : State} (h : ∀ n, (s.stepMany (n + 1)).status = .running) (n : Nat) :
    (runBudget (n + 1) s).1 = .continue := by
  obtain ⟨k, hk, _, hreport, _, hstop⟩ := budgetedRunIsRepeatedSteps (n + 1) s
  have hpos : 0 < k := by
    by_contra hzero
    exact absurd (hstop (by omega)).1 hzero
  obtain ⟨k, rfl⟩ := Nat.exists_eq_add_of_lt hpos
  rw [hreport, Status.report_eq_continue_iff, Nat.zero_add, h]

/-- Settles O55: the jump leaves the state with `Running` latched, from which the same step leaves it as it is. -/
theorem selfJumpRunsForEver : Obligations.SelfJumpRunsForEver := by
  unfold Obligations.SelfJumpRunsForEver
  intro s i q hs hd hjump hself
  have hstep : step s = .next (s.latch .running) := (step_of_decode_ok hs hd).trans (exec_of_takesJump hjump hself)
  have hfixed : (s.latch .running).stepped = s.latch .running := State.stepped_eq ((step_latch hs rfl).trans hstep)
  have hmany (n : Nat) : s.stepMany (n + 1) = s.latch .running := by
    rw [State.stepMany, State.stepped_eq hstep, stepMany_of_fixed hfixed]
  refine ⟨hmany, fun r t ⟨n, hrun, hr⟩ => hr ?_⟩
  calc r = (runBudget (n + 1) s).1 := by rw [hrun]
    _ = .continue := runBudget_continue (fun n => by rw [hmany]; rfl) n

end Sys2Proof.Machine
end

section
/-! PROOFS. The loader of program text (spec/30_encoding.md rule R64): blanks around an element, decimal digits with an
optional sign, elements between commas, and the obligation assembled from these. -/

namespace Sys2Proof.Machine

theorem isBlank_iff {c : Char} : isBlank c = true ↔ c = ' ' ∨ c = '\t' ∨ c = '\n' ∨ c = '\r' := by
  simp [isBlank, or_assoc]

/-- Trimming takes the blanks around a text without blanks and leaves the text (rule R64). -/
theorem trimBlanks_append {before core after : List Char} (hb : ∀ c ∈ before, isBlank c = true)
    (ha : ∀ c ∈ after, isBlank c = true) (hcore : ∀ c ∈ core, ¬ isBlank c = true) :
    trimBlanks (before ++ core ++ after) = core := by
  unfold trimBlanks
  cases core with
  | nil =>
    have hall : (before ++ [] ++ after).dropWhile isBlank = [] :=
      List.dropWhile_eq_nil_iff.mpr fun c hc => (List.mem_append.mp (by simpa using hc)).elim (hb c) (ha c)
    rw [hall]
    rfl
  | cons c cs =>
    have hfront : (before ++ c :: cs ++ after).dropWhile isBlank = c :: cs ++ after := by
      rw [List.append_assoc, List.dropWhile_append_of_pos hb]
      exact List.dropWhile_cons_of_neg (hcore c List.mem_cons_self)
    have hback : (c :: cs).reverse.dropWhile isBlank = (c :: cs).reverse :=
      List.dropWhile_eq_self_iff.mpr fun hl => hcore _ (List.mem_reverse.mp (List.getElem_mem hl))
    rw [hfront, List.reverse_append, List.dropWhile_append_of_pos (by simpa using ha), hback, List.reverse_reverse]

/-- The character of a decimal digit. -/
def digitChar (d : Nat) : Char := Char.ofNat (48 + d)

section
variable {d : Nat} (hd : d ≤ 9)
include hd

theorem digitValue_digitChar : digitValue (digitChar d) = some d := by
  interval_cases d <;> rfl

theorem not_isBlank_digitChar : ¬ isBlank (digitChar d) = true := by
  interval_cases d <;> decide

theorem digitChar_ne_sign : digitChar d ≠ '-' ∧ digitChar d ≠ '+' := by
  interval_cases d <;> decide

end

/-- The digits of a number are read to its value, most significant first (rule R64). -/
theorem digitsFrom_map_digitChar {ds : List Nat} (hds : ∀ d ∈ ds, d ≤ 9) (acc : Nat) :
    digitsFrom acc (ds.map digitChar) = some (ds.foldl (fun n d => 10 * n + d) acc) := by
  induction ds generalizing acc with
  | nil => rfl
  | cons d ds ih =>
    rw [List.map_cons, digitsFrom, digitValue_digitChar (hds d List.mem_cons_self)]
    exact ih (fun e he => hds e (List.mem_cons_of_mem d he)) _

/-- The number whose decimal digits are `ds`, most significant first. -/
def decimalValue (ds : List Nat) : Nat := ds.foldl (fun n d => 10 * n + d) 0

section
variable {ds : List Nat} (hne : ds ≠ []) (hds : ∀ d ∈ ds, d ≤ 9)
include hne hds

theorem parseNat_map_digitChar : parseNat (ds.map digitChar) = some (decimalValue ds) := by
  cases ds with
  | nil => exact absurd rfl hne
  | cons d ds => exact digitsFrom_map_digitChar hds 0

/-- Without a sign the first character is a digit, so none is taken for a sign. -/
theorem parseInt_map_digitChar : parseInt (ds.map digitChar) = some (decimalValue ds : Int) := by
  have hvalue := parseNat_map_digitChar hne hds
  cases ds with
  | nil => exact absurd rfl hne
  | cons d ds =>
    obtain ⟨hminus, hplus⟩ := digitChar_ne_sign (hds d List.mem_cons_self)
    rw [List.map_cons] at hvalue ⊢
    rw [parseInt, if_neg hminus, if_neg hplus, hvalue]
    rfl

/-- An optional sign and digits are read to the signed value (rule R64). -/
theorem parseInt_signed {sign : List Char} {k : Int}
    (hsign : (sign = [] ∧ k = 1) ∨ (sign = ['+'] ∧ k = 1) ∨ (sign = ['-'] ∧ k = -1)) :
    parseInt (sign ++ ds.map digitChar) = some (k * (decimalValue ds : Int)) := by
  have hvalue := parseNat_map_digitChar hne hds
  rcases hsign with ⟨rfl, rfl⟩ | ⟨rfl, rfl⟩ | ⟨rfl, rfl⟩
  · rw [List.nil_append, parseInt_map_digitChar hne hds, one_mul]
  · simp [parseInt, hvalue]
  · simp [parseInt, hvalue]

end

/-- Neither a sign nor a digit is a blank. -/
theorem not_isBlank_of_mem_signed {sign : List Char} {ds : List Nat} {c : Char}
    (hsign : sign = [] ∨ sign = ['+'] ∨ sign = ['-']) (hds : ∀ d ∈ ds, d ≤ 9) (hc : c ∈ sign ++ ds.map digitChar) :
    ¬ isBlank c = true := by
  rcases List.mem_append.mp hc with hc | hc
  · rcases hsign with rfl | rfl | rfl
    · cases hc
    · rw [List.mem_singleton.mp hc]
      decide
    · rw [List.mem_singleton.mp hc]
      decide
  · obtain ⟨d, hd, rfl⟩ := List.mem_map.mp hc
    exact not_isBlank_digitChar (hds d hd)

/-- An element is the word of its value where the value fits (rule R64). -/
theorem parseElement_of_parseInt {cs : List Char} {v : Int} (h : parseInt (trimBlanks cs) = some v) :
    parseElement cs = if FitsWord v then some (wordOf v) else none := by
  rw [parseElement, h]

/-- An element of blanks alone has no value (rule R64). -/
theorem parseElement_of_blank {cs : List Char} (h : ∀ c ∈ cs, isBlank c = true) : parseElement cs = none := by
  have htrim : trimBlanks cs = [] := by simpa using trimBlanks_append h (after := []) (core := []) (by simp) (by simp)
  rw [parseElement, htrim]
  rfl

/-- Text without a comma is one element (rule R64). -/
theorem splitCommas_of_not_mem {e : List Char} (h : ',' ∉ e) : splitCommas e = [e] := by
  induction e with
  | nil => rfl
  | cons c cs ih =>
    obtain ⟨hc, hcs⟩ := not_or.mp (mt List.mem_cons.mpr h)
    rw [splitCommas, if_neg (Ne.symm hc), ih hcs]

/-- The first comma ends the first element (rule R64). -/
theorem splitCommas_append_comma {e : List Char} (h : ',' ∉ e) (rest : List Char) :
    splitCommas (e ++ ',' :: rest) = e :: splitCommas rest := by
  induction e with
  | nil => rfl
  | cons c cs ih =>
    obtain ⟨hc, hcs⟩ := not_or.mp (mt List.mem_cons.mpr h)
    rw [List.cons_append, splitCommas, if_neg (Ne.symm hc), ih hcs]

/-- The words of the elements, or a refusal at the first element that has none (rule R64). -/
theorem parseElements_cons (e : List Char) (es : List (List Char)) :
    parseElements (e :: es) = (parseElement e).bind fun w => (parseElements es).map fun ws => w :: ws := by
  rw [parseElements]
  cases parseElement e <;> cases parseElements es <;> rfl

/-- Settles O56: one element by its trimmed text, an element of blanks, and the split at the commas. -/
theorem loaderReadsProgramText : Obligations.LoaderReadsProgramText := by
  unfold Obligations.LoaderReadsProgramText
  refine ⟨fun before after sign ds k hblank hne hds hsign => ?_, fun e hblank => ?_, fun e hcomma => ⟨?_, fun rest => ?_⟩⟩
  · have hbefore : ∀ c ∈ before, isBlank c = true := fun c hc => isBlank_iff.mpr (hblank c (List.mem_append_left _ hc))
    have hafter : ∀ c ∈ after, isBlank c = true := fun c hc => isBlank_iff.mpr (hblank c (List.mem_append_right _ hc))
    have htrim : trimBlanks (before ++ sign ++ ds.map digitChar ++ after) = sign ++ ds.map digitChar := by
      rw [List.append_assoc before]
      exact trimBlanks_append hbefore hafter fun c =>
        not_isBlank_of_mem_signed (hsign.imp And.left (.imp And.left And.left)) hds
    exact parseElement_of_parseInt (htrim ▸ parseInt_signed hne hds hsign)
  · exact parseElement_of_blank fun c hc => isBlank_iff.mpr (hblank c hc)
  · rw [parseProgram, splitCommas_of_not_mem hcomma, parseElements_cons]
    cases parseElement e <;> rfl
  · rw [parseProgram, splitCommas_append_comma hcomma, parseElements_cons, parseProgram]

end Sys2Proof.Machine
end
